-- ==== Sys2Proof/Word.lean ====
section
/-! DEFINITION. The word types of the electron CORE (00_scope.md R7, R8: every value is an unsigned number of fixed width). -/

namespace Sys2Proof

/-- A register, the accumulator, a port or an operand value (00_scope.md R7: data width 8). -/
abbrev Byte := BitVec 8

/-- An instruction-store address (00_scope.md R7: program counter width 5). -/
abbrev PcAddr := BitVec 5

/-- The 32-bit spelling of an instruction (30_encoding.md R74). -/
abbrev Word := BitVec 32

end Sys2Proof
end

