-- ==== Sys2Proof/Syntax.lean ====
section
/-! DEFINITION. The instruction as a record of four fields (30_encoding.md R70 to R73) and as the sixteen rows of the opcode map (R86). -/

namespace Sys2Proof

/-- The ten operations, in the source's order (30_encoding.md R71). -/
inductive Operation where
  | noop | imm | mov | add | addc | shr | not | out | jmp | bie
  deriving DecidableEq, Repr

/-- The four addressing modes (30_encoding.md R72). -/
inductive AddrMode where
  | none | s | u | x
  deriving DecidableEq, Repr

/-- The four operand kinds (30_encoding.md R73). -/
inductive OperandKind where
  | register | memoryAddress | immediate | port
  deriving DecidableEq, Repr

/-- A tagged 8-bit value (30_encoding.md R70, R84). -/
structure Operand where
  kind : OperandKind
  val : Byte
  deriving DecidableEq, Repr

/-- `is_alu_operation`: "true only for ADD/ADDC" (30_encoding.md R77). -/
def Operation.isAlu : Operation → Bool
  | .add | .addc => true
  | .noop | .imm | .mov | .shr | .not | .out | .jmp | .bie => false

/-- The record of 30_encoding.md R70 with its fields unrestricted: it can also hold the combinations of
operation and mode that no instruction has (R81, R82). -/
structure RawInstr where
  op : Operation
  mode : AddrMode
  a : Operand
  b : Operand
  deriving DecidableEq, Repr

/-- An instruction: one constructor per row of spec/opcode_table.json, each with operand A and operand B
(30_encoding.md R70: "Every instruction has all four fields"; R86).  Operand kinds and values are
unrestricted (R81, R83). -/
inductive Instr where
  | noop (a b : Operand)
  | imm (a b : Operand)
  | mov (a b : Operand)
  | add (a b : Operand)
  | sadd (a b : Operand)
  | uadd (a b : Operand)
  | xadd (a b : Operand)
  | addc (a b : Operand)
  | saddc (a b : Operand)
  | uaddc (a b : Operand)
  | xaddc (a b : Operand)
  | shr (a b : Operand)
  | not (a b : Operand)
  | out (a b : Operand)
  | jmp (a b : Operand)
  | bie (a b : Operand)
  deriving DecidableEq, Repr

/-- The four fields of an instruction (30_encoding.md R70, R86). -/
def Instr.toRaw : Instr → RawInstr
  | .noop a b => ⟨.noop, .none, a, b⟩
  | .imm a b => ⟨.imm, .none, a, b⟩
  | .mov a b => ⟨.mov, .none, a, b⟩
  | .add a b => ⟨.add, .none, a, b⟩
  | .sadd a b => ⟨.add, .s, a, b⟩
  | .uadd a b => ⟨.add, .u, a, b⟩
  | .xadd a b => ⟨.add, .x, a, b⟩
  | .addc a b => ⟨.addc, .none, a, b⟩
  | .saddc a b => ⟨.addc, .s, a, b⟩
  | .uaddc a b => ⟨.addc, .u, a, b⟩
  | .xaddc a b => ⟨.addc, .x, a, b⟩
  | .shr a b => ⟨.shr, .none, a, b⟩
  | .not a b => ⟨.not, .none, a, b⟩
  | .out a b => ⟨.out, .none, a, b⟩
  | .jmp a b => ⟨.jmp, .none, a, b⟩
  | .bie a b => ⟨.bie, .none, a, b⟩

/-- `I.op` (00_scope.md R9). -/
abbrev Instr.op (i : Instr) : Operation := i.toRaw.op
/-- `I.mode` (00_scope.md R9). -/
abbrev Instr.mode (i : Instr) : AddrMode := i.toRaw.mode
/-- Operand A (00_scope.md R9). -/
abbrev Instr.opA (i : Instr) : Operand := i.toRaw.a
/-- Operand B (00_scope.md R9). -/
abbrev Instr.opB (i : Instr) : Operand := i.toRaw.b

/-- `Immediate(0)`, what an unused operand slot holds (30_encoding.md R70, R76). -/
def Operand.unused : Operand := ⟨.immediate, 0#8⟩

/-- The canonical no-op (30_encoding.md R78). -/
def canonicalNoop : Instr := .noop .unused .unused

/-- A Program: "ordered sequence of exactly 32 Instructions" (30_encoding.md R79). -/
abbrev Program := Vector Instr 32

end Sys2Proof
end

