-- ==== Sys2Proof/WellFormed.lean ====
section
/-! DEFINITION. Which records are instructions (30_encoding.md R81), and the kinds the assembler expects (R76). -/

namespace Sys2Proof

/-- A record spells an instruction exactly when its mode is None or its operation is ADD or ADDC;
"Operand kinds and values are unrestricted" (30_encoding.md R81). -/
def RawInstr.wellFormed (r : RawInstr) : Bool :=
  r.op.isAlu || r.mode == .none

/-- The check on an instruction.  Every term of `Instr` passes it (Laws/PerInstr.lean), because `Instr`
has no constructor for a mode on an operation that takes none. -/
def Instr.wellFormed (i : Instr) : Bool := i.toRaw.wellFormed

/-- A well-formed instruction store: exactly 32 records, each of them an instruction
(30_encoding.md R79, R81). -/
def storeWellFormed (store : List RawInstr) : Bool :=
  store.length == 32 && store.all RawInstr.wellFormed

/-- `operand_requirements`: the kind each slot requires, or none where the slot is not consumed
(30_encoding.md R76).  The entries R76 gives as n/a (a mode on an operation that takes no prefix) are
those of mode None; no well-formed record reaches them. -/
def operandRequirements : Operation → AddrMode → Option OperandKind × Option OperandKind
  | .noop, _ => (none, none)
  | .imm, _ => (some .register, some .immediate)
  | .mov, _ => (some .register, some .register)
  | .add, .x => (none, some .register)
  | .add, .none | .add, .s | .add, .u => (some .register, some .register)
  | .addc, .x => (none, some .register)
  | .addc, .none | .addc, .s | .addc, .u => (some .register, some .register)
  | .shr, _ => (some .register, some .register)
  | .not, _ => (some .register, some .register)
  | .out, _ => (some .port, some .register)
  | .jmp, _ => (some .immediate, none)
  | .bie, _ => (some .immediate, none)

/-- A slot is as the assembler writes it without a warning: the required kind, or `Immediate(0)` where
the slot is not consumed (30_encoding.md R76, R96). -/
def slotAsExpected (required : Option OperandKind) (o : Operand) : Bool :=
  match required with
  | some k => o.kind == k
  | none => o == .unused

/-- Both slots are as the assembler writes them without a warning (30_encoding.md R102).  Not a condition
of well-formedness: other kinds are legal (R83). -/
def Instr.kindsAsExpected (i : Instr) : Bool :=
  let req := operandRequirements i.op i.mode
  slotAsExpected req.1 i.opA && slotAsExpected req.2 i.opB

end Sys2Proof
end

