-- ==== Sys2Proof/Decode.lean ====
section
/-! DEFINITION. The 32-bit word of 30_encoding.md R74: decoder, total and rejecting by name (R82), then the encoder. -/

namespace Sys2Proof

/-- Why a word spells no instruction (30_encoding.md R82). -/
inductive DecodeError where
  /-- The `op` field is 10 to 15. -/
  | reservedOperation
  /-- A bit of 27:26 or of 19:16 is not 0. -/
  | reservedBits
  /-- A mode other than None with an operation other than ADD or ADDC. -/
  | modeOnNonAlu
  deriving DecidableEq, Repr

/-- Operation tags (30_encoding.md R71): 10 to 15 name no operation. -/
def operationOfCode (c : BitVec 4) : Option Operation :=
  match c.toNat with
  | 0 => some .noop
  | 1 => some .imm
  | 2 => some .mov
  | 3 => some .add
  | 4 => some .addc
  | 5 => some .shr
  | 6 => some .not
  | 7 => some .out
  | 8 => some .jmp
  | 9 => some .bie
  | _ => none

/-- Addressing-mode values (30_encoding.md R72). -/
def modeOfCode (c : BitVec 2) : AddrMode :=
  match c.toNat with
  | 0 => .none
  | 1 => .s
  | 2 => .u
  | _ => .x

/-- Operand-kind values (30_encoding.md R73). -/
def kindOfCode (c : BitVec 2) : OperandKind :=
  match c.toNat with
  | 0 => .register
  | 1 => .memoryAddress
  | 2 => .immediate
  | _ => .port

/-- The instruction a record spells (30_encoding.md R81, R86); none for a mode on an operation that takes
none. -/
def RawInstr.toInstr? (r : RawInstr) : Option Instr :=
  match r.op, r.mode with
  | .noop, .none => some (.noop r.a r.b)
  | .imm, .none => some (.imm r.a r.b)
  | .mov, .none => some (.mov r.a r.b)
  | .add, .none => some (.add r.a r.b)
  | .add, .s => some (.sadd r.a r.b)
  | .add, .u => some (.uadd r.a r.b)
  | .add, .x => some (.xadd r.a r.b)
  | .addc, .none => some (.addc r.a r.b)
  | .addc, .s => some (.saddc r.a r.b)
  | .addc, .u => some (.uaddc r.a r.b)
  | .addc, .x => some (.xaddc r.a r.b)
  | .shr, .none => some (.shr r.a r.b)
  | .not, .none => some (.not r.a r.b)
  | .out, .none => some (.out r.a r.b)
  | .jmp, .none => some (.jmp r.a r.b)
  | .bie, .none => some (.bie r.a r.b)
  | .noop, .s | .noop, .u | .noop, .x | .imm, .s | .imm, .u | .imm, .x
  | .mov, .s | .mov, .u | .mov, .x | .shr, .s | .shr, .u | .shr, .x
  | .not, .s | .not, .u | .not, .x | .out, .s | .out, .u | .out, .x
  | .jmp, .s | .jmp, .u | .jmp, .x | .bie, .s | .bie, .u | .bie, .x => none

/-- The operand in the kind field at bit `kindAt` and the value field at bit `valAt` (30_encoding.md R74). -/
def operandOfWord (w : Word) (kindAt valAt : Nat) : Operand :=
  ⟨kindOfCode (w.extractLsb' kindAt 2), w.extractLsb' valAt 8⟩

/-- Decode one word (30_encoding.md R74, R82). -/
def decode (w : Word) : Except DecodeError Instr :=
  match operationOfCode (w.extractLsb' 28 4) with
  | none => .error .reservedOperation
  | some op =>
    if w.extractLsb' 26 2 = 0#2 ∧ w.extractLsb' 16 4 = 0#4 then
      match RawInstr.toInstr? ⟨op, modeOfCode (w.extractLsb' 24 2), operandOfWord w 22 8, operandOfWord w 20 0⟩ with
      | some i => .ok i
      | none => .error .modeOnNonAlu
    else .error .reservedBits

/-- The instruction an opcode-table row's bits stand for.  The table's bit numbers are those of the one
32-bit word (30_encoding.md R74, R85): there is no byte order (20_memory.md R53).  A number with a bit
above bit 31 is no word. -/
def decodeTableWord (nbits w : Nat) : Option Instr :=
  let bits := w % 2 ^ nbits
  if bits < 2 ^ 32 then (decode (BitVec.ofNat 32 bits)).toOption else none

/-! ## The encoder -/

/-- 30_encoding.md R71. -/
def Operation.code : Operation → BitVec 4
  | .noop => 0#4
  | .imm => 1#4
  | .mov => 2#4
  | .add => 3#4
  | .addc => 4#4
  | .shr => 5#4
  | .not => 6#4
  | .out => 7#4
  | .jmp => 8#4
  | .bie => 9#4

/-- 30_encoding.md R72. -/
def AddrMode.code : AddrMode → BitVec 2
  | .none => 0#2
  | .s => 1#2
  | .u => 2#2
  | .x => 3#2

/-- 30_encoding.md R73. -/
def OperandKind.code : OperandKind → BitVec 2
  | .register => 0#2
  | .memoryAddress => 1#2
  | .immediate => 2#2
  | .port => 3#2

/-- `word = {op, 0b00, mode, ka, kb, 0b0000, va, vb}` (30_encoding.md R74). -/
def RawInstr.encode (r : RawInstr) : Word :=
  r.op.code ++ 0#2 ++ r.mode.code ++ r.a.kind.code ++ r.b.kind.code ++ 0#4 ++ r.a.val ++ r.b.val

/-- The word of an instruction (30_encoding.md R74). -/
def encode (i : Instr) : Word := i.toRaw.encode

end Sys2Proof
end

