-- ==== Sys2Proof/Config.lean ====
section
/-! DEFINITION. The two OPEN parameters of the spec (00_scope.md R7). -/

namespace Sys2Proof

/-- `ADDC_511_ACC`: what the accumulator holds after an ADDC sum of 511, which no sentence of the spec
fixes (40_pipeline.md R121, 92_eei_decisions.md D12).  A free value: no body, so no proof can use a
number for it.  Log entry 2. -/
opaque Config.addc511Acc : Byte

/-- `OVERSIZE_POLICY`: what the assembler does with a source of more than 32 instructions
(30_encoding.md R98, 92_eei_decisions.md D17).  An argument of the assembler. -/
inductive OversizePolicy where
  /-- A warning, and the first 32 instructions are kept. -/
  | warnTruncate
  /-- An error, and no Program. -/
  | error
  deriving DecidableEq, Repr

end Sys2Proof
end

