-- ==== Sys2Proof/Machine/State.lean ====
section
/-! DEFINITION. The state of the core (10_state.md R20), its reset value (R36), and the reasons a step or a load can stop. -/

namespace Sys2Proof.Machine

/-- The reasons a step can fault: NONE.  "Runtime (pipeline) errors do not exist by design"
(60_exceptions.md R180), and 93_implementation_defined.md says "There is no behaviour for which a model
must `fault`".  The type has no value. -/
inductive Fault
  deriving DecidableEq, Repr

/-- The reasons the model refuses. -/
inductive Refusal where
  /-- Raised by an arm of `exec` whose instruction has no meaning yet.  Safe: nothing is claimed of it.  No
  arm raises it in this model. -/
  | notModelled (mnemonic : String)
  /-- Raised by `loadWith` (never by `step`): the word at this address spells no instruction, "a model
  refuses, at load" (30_encoding.md R81, R82).  Safe: the spec asks for it. -/
  | notAnInstruction (addr : Nat)
  /-- Raised by `loadWith` (never by `step`): the store has not exactly 32 entries (30_encoding.md R79).
  Safe: such a store does not exist. -/
  | notThirtyTwoEntries (entries : Nat)
  deriving DecidableEq, Repr

/-- The MODEL's own datum (log entry 1): the two stages of a clock that act for an instruction
(40_pipeline.md R111).  Each rule of an instruction gives its effect in these two stages. -/
inductive Stage where
  /-- `Writeback(I)`. -/
  | writeBack
  /-- `Branch(I)`, then `AluStep(I)`. -/
  | execute
  deriving DecidableEq, Repr

/-- The four condition flags (10_state.md R28). -/
structure Flags where
  eq : Bool
  gt : Bool
  lt : Bool
  ov : Bool
  deriving DecidableEq, Repr

/-- The whole state (10_state.md R20); the names follow the spec's, with `ifReg`, `idReg`, `exReg` and
`wbReg` for IF, ID, EX and WB, and `inp` for in. -/
@[ext]
structure State where
  /-- "the 5-bit address of the next instruction to fetch" (10_state.md R26). -/
  pc : PcAddr
  /-- IF (10_state.md R29). -/
  ifReg : Instr
  /-- ID (10_state.md R29). -/
  idReg : Instr
  /-- EX (10_state.md R29). -/
  exReg : Instr
  /-- WB (10_state.md R29). -/
  wbReg : Instr
  /-- The eight cells of the register file (10_state.md R21); cell 0 is hard-wired (R22), so all reads and
  writes go through `readReg` and `writeReg`. -/
  x : Vector Byte 8
  /-- The accumulator (10_state.md R27). -/
  acc : Byte
  /-- The condition flags (10_state.md R28). -/
  flags : Flags
  /-- The output latches (10_state.md R31). -/
  out : Vector Byte 8
  /-- The input lines (10_state.md R32). -/
  inp : Vector Byte 8
  /-- The instruction store IMEM (10_state.md R30). -/
  imem : Program
  /-- The MODEL's own field, not the spec's (log entry 1): the stage `exec` is asked for.  `step` sets it
  before each use and leaves it at `writeBack`, so no behaviour depends on the value it had. -/
  stage : Stage
  deriving DecidableEq, Repr

/-- The state right after reset (10_state.md R36).  IMEM is "the Program given at construction"; with none
given it is the empty Program, 32 canonical no-ops (log entry 4). -/
def State.reset : State where
  pc := 0#5
  ifReg := canonicalNoop
  idReg := canonicalNoop
  exReg := canonicalNoop
  wbReg := canonicalNoop
  x := Vector.replicate 8 0#8
  acc := 0#8
  flags := ⟨false, false, false, false⟩
  out := Vector.replicate 8 0#8
  inp := Vector.replicate 8 0#8
  imem := Vector.replicate 32 canonicalNoop
  stage := .writeBack

end Sys2Proof.Machine
end

