-- ==== Sys2Proof/Machine/Ops.lean ====
section
/-! DEFINITION. The named operations over the register file, the ports, the program counter and the pipeline registers.  There is no operation for taking an exception or returning from one: the core has none (60_exceptions.md R180, R183, R184). -/

namespace Sys2Proof.Machine

/-- `x[i]`: index 0 reads 0 (10_state.md R22), 1 to 7 the cell (R23), 8 to 255 read 0 (R24). -/
def readReg (i : Byte) (s : State) : Byte :=
  if h : 1 ≤ i.toNat ∧ i.toNat < 8 then s.x[i.toNat]'h.2 else 0#8

/-- `x[i] <- v`: index 0 (10_state.md R22) and 8 to 255 (R24) discard the write. -/
def writeReg (i v : Byte) (s : State) : State :=
  if h : 1 ≤ i.toNat ∧ i.toNat < 8 then { s with x := s.x.set i.toNat v h.2 } else s

/-- `PortWrite(p, v)`: an index of 8 or more "is silently dropped" (10_state.md R31, 41_data_movement.md R143). -/
def portWrite (p v : Byte) (s : State) : State :=
  if h : p.toNat < 8 then { s with out := s.out.set p.toNat v h } else s

/-- `IFetch(a)`: every pc value addresses an entry; "fetch cannot fail" (40_pipeline.md R115). -/
def ifetch (a : PcAddr) (s : State) : Instr :=
  s.imem[a.toNat]'a.isLt

/-- `pc <- v[4:0]`, the jump of the execute stage (43_control.md R170). -/
def branchTo (v : Byte) (s : State) : State :=
  { s with pc := v.setWidth 5 }

/-! ## The parts of clock() around the two stages that act for an instruction (40_pipeline.md R111) -/

/-- `WB <- EX`: the write-back stage takes the EX register of the previous clock. -/
def enterWriteBack (s : State) : State :=
  { s with wbReg := s.exReg, stage := .writeBack }

/-- `EX <- ID`: the execute stage takes the ID register of the previous clock. -/
def enterExecute (s : State) : State :=
  { s with exReg := s.idReg, stage := .execute }

/-- `ID <- IF`: "no transformation" (40_pipeline.md R114). -/
def decodeStage (s : State) : State :=
  { s with idReg := s.ifReg }

/-- `IF <- IMEM[pc]` (40_pipeline.md R115). -/
def fetchStage (s : State) : State :=
  { s with ifReg := ifetch s.pc s }

/-- `pc <- (pc + 1) mod 32` (40_pipeline.md R116). -/
def advancePc (s : State) : State :=
  { s with pc := s.pc + 1#5 }

/-- What follows the execute stage: decode, fetch at the pc it left, the advance; the clock is then over. -/
def endClock (s : State) : State :=
  { advancePc (fetchStage (decodeStage s)) with stage := .writeBack }

/-- An instruction's effect, given its effect in each of the two stages (40_pipeline.md R112, R113).  The
core cannot fault (60_exceptions.md R180). -/
def byStage (execute writeBack : State → State) (s : State) : Host.Outcome State Fault Refusal :=
  match s.stage with
  | .execute => .next (execute s)
  | .writeBack => .next (writeBack s)

end Sys2Proof.Machine
end

