-- ==== Sys2Proof/Machine/Operands.lean ====
section
/-! DEFINITION. The operand forms: the two ALU inputs (40_pipeline.md R118) and the write-back forms (10_state.md R25). Only the 8-bit values are used, never the kinds (30_encoding.md R80, R83). -/

namespace Sys2Proof.Machine

/-- ALU input A: register A in modes None and S, the accumulator in modes U and X (40_pipeline.md R118). -/
def aluInputA (mode : AddrMode) (a : Operand) (s : State) : Byte :=
  match mode with
  | .none | .s => readReg a.val s
  | .u | .x => s.acc

/-- ALU input B: register B, always (40_pipeline.md R118). -/
def aluInputB (b : Operand) (s : State) : Byte := readReg b.val s

/-- `x[I.a.val] <- I.b.val` (41_data_movement.md R141). -/
def writeImmediate (a b : Operand) (s : State) : State := writeReg a.val b.val s

/-- `x[I.a.val] <- x[I.b.val]`, read through RW, then written through WP (41_data_movement.md R142). -/
def copyRegister (a b : Operand) (s : State) : State := writeReg a.val (readReg b.val s) s

/-- `out[I.a.val] <- x[I.b.val]` (41_data_movement.md R143). -/
def outputRegister (a b : Operand) (s : State) : State := portWrite a.val (readReg b.val s) s

/-- `x[I.a.val] <- acc` (42_alu.md R150). -/
def writeAccumulator (a : Operand) (s : State) : State := writeReg a.val s.acc s

end Sys2Proof.Machine
end

