-- ==== Sys2Proof/Machine/Flags.lean ====
section
/-! DEFINITION. The ALU step of the execute stage, the same for every operation (40_pipeline.md R117 to R122): result, flags, accumulator. -/

namespace Sys2Proof.Machine

/-- The wide result, an exact natural number of 0 to 511 (40_pipeline.md R119). -/
def aluResult (op : Operation) (a b : Byte) : Nat :=
  match op with
  | .add => a.toNat + b.toNat
  | .addc => a.toNat + b.toNat + 1
  | .noop | .imm | .mov | .shr | .not | .out | .jmp | .bie => 0

/-- `Wrap(r)`: subtracts 255, not 256 (40_pipeline.md R121).  511 is the only larger result R119 can give;
its accumulator is the free value `ADDC_511_ACC`. -/
def wrap (r : Nat) : Byte :=
  if r ≤ 255 then BitVec.ofNat 8 r
  else if r ≤ 510 then BitVec.ofNat 8 (r - 255)
  else Config.addc511Acc

/-- The four flags: the compares are of the raw inputs, the overflow of the result (40_pipeline.md R120). -/
def aluFlags (a b : Byte) (r : Nat) : Flags where
  eq := decide (a = b)
  gt := decide (b.toNat < a.toNat)
  lt := decide (a.toNat < b.toNat)
  ov := decide (255 < r)

/-- `AluStep(I)`, for every operation: both inputs are read before acc is written (40_pipeline.md R117). -/
def aluStep (op : Operation) (mode : AddrMode) (a b : Operand) (s : State) : State :=
  let ia := aluInputA mode a s
  let ib := aluInputB b s
  let r := aluResult op ia ib
  { s with flags := aluFlags ia ib r, acc := wrap r }

end Sys2Proof.Machine
end

