-- ==== Sys2Proof/Machine/Alu.lean ====
section
/-! DEFINITION. ADD and ADDC in their four modes, SHR and NOT (42_alu.md). -/

namespace Sys2Proof.Machine

/-- 42_alu.md R150. -/
def execAdd (a b : Operand) (s : State) : Host.Outcome State Fault Refusal :=
  byStage (aluStep .add .none a b) (writeAccumulator a) s

/-- 42_alu.md R151. -/
def execSadd (a b : Operand) (s : State) : Host.Outcome State Fault Refusal :=
  byStage (aluStep .add .s a b) (writeAccumulator a) s

/-- 42_alu.md R152. -/
def execUadd (a b : Operand) (s : State) : Host.Outcome State Fault Refusal :=
  byStage (aluStep .add .u a b) (writeAccumulator a) s

/-- 42_alu.md R153: "mode X performs no register write since it has no A operand". -/
def execXadd (a b : Operand) (s : State) : Host.Outcome State Fault Refusal :=
  byStage (aluStep .add .x a b) id s

/-- 42_alu.md R154. -/
def execAddc (a b : Operand) (s : State) : Host.Outcome State Fault Refusal :=
  byStage (aluStep .addc .none a b) (writeAccumulator a) s

/-- 42_alu.md R155. -/
def execSaddc (a b : Operand) (s : State) : Host.Outcome State Fault Refusal :=
  byStage (aluStep .addc .s a b) (writeAccumulator a) s

/-- 42_alu.md R156. -/
def execUaddc (a b : Operand) (s : State) : Host.Outcome State Fault Refusal :=
  byStage (aluStep .addc .u a b) (writeAccumulator a) s

/-- 42_alu.md R157. -/
def execXaddc (a b : Operand) (s : State) : Host.Outcome State Fault Refusal :=
  byStage (aluStep .addc .x a b) id s

/-- 42_alu.md R158: "no effect beyond the common ALU step"; no shift. -/
def execShr (a b : Operand) (s : State) : Host.Outcome State Fault Refusal :=
  byStage (aluStep .shr .none a b) id s

/-- 42_alu.md R159: no effect beyond the common ALU step; no complement. -/
def execNot (a b : Operand) (s : State) : Host.Outcome State Fault Refusal :=
  byStage (aluStep .not .none a b) id s

end Sys2Proof.Machine
end

