-- ==== Sys2Proof/Machine/Control.lean ====
section
/-! DEFINITION. JMP and BIE (43_control.md). -/

namespace Sys2Proof.Machine

/-- 43_control.md R170: in the execute stage the branch, then the ALU step. -/
def execJmp (a b : Operand) (s : State) : Host.Outcome State Fault Refusal :=
  byStage (fun t => aluStep .jmp .none a b (branchTo a.val t)) id s

/-- 43_control.md R171: "never writes pc, whatever the flags". -/
def execBie (a b : Operand) (s : State) : Host.Outcome State Fault Refusal :=
  byStage (aluStep .bie .none a b) id s

end Sys2Proof.Machine
end

