-- ==== Sys2Proof/Machine/DataMovement.lean ====
section
/-! DEFINITION. NOOP, IMM, MOV and OUT (41_data_movement.md). -/

namespace Sys2Proof.Machine

/-- 41_data_movement.md R140. -/
def execNoop (a b : Operand) (s : State) : Host.Outcome State Fault Refusal :=
  byStage (aluStep .noop .none a b) id s

/-- 41_data_movement.md R141. -/
def execImm (a b : Operand) (s : State) : Host.Outcome State Fault Refusal :=
  byStage (aluStep .imm .none a b) (writeImmediate a b) s

/-- 41_data_movement.md R142. -/
def execMov (a b : Operand) (s : State) : Host.Outcome State Fault Refusal :=
  byStage (aluStep .mov .none a b) (copyRegister a b) s

/-- 41_data_movement.md R143. -/
def execOut (a b : Operand) (s : State) : Host.Outcome State Fault Refusal :=
  byStage (aluStep .out .none a b) (outputRegister a b) s

end Sys2Proof.Machine
end

