-- ==== Sys2Proof/Machine/Dispatch.lean ====
section
/-! DEFINITION. One arm per constructor of Instr: the meaning of that instruction in the stage the state is in. -/

namespace Sys2Proof.Machine

def exec (i : Instr) (s : State) : Host.Outcome State Fault Refusal :=
  match i with
  | .noop a b => Sys2Proof.Machine.execNoop a b s
  | .imm a b => Sys2Proof.Machine.execImm a b s
  | .mov a b => Sys2Proof.Machine.execMov a b s
  | .add a b => Sys2Proof.Machine.execAdd a b s
  | .sadd a b => Sys2Proof.Machine.execSadd a b s
  | .uadd a b => Sys2Proof.Machine.execUadd a b s
  | .xadd a b => Sys2Proof.Machine.execXadd a b s
  | .addc a b => Sys2Proof.Machine.execAddc a b s
  | .saddc a b => Sys2Proof.Machine.execSaddc a b s
  | .uaddc a b => Sys2Proof.Machine.execUaddc a b s
  | .xaddc a b => Sys2Proof.Machine.execXaddc a b s
  | .shr a b => Sys2Proof.Machine.execShr a b s
  | .not a b => Sys2Proof.Machine.execNot a b s
  | .out a b => Sys2Proof.Machine.execOut a b s
  | .jmp a b => Sys2Proof.Machine.execJmp a b s
  | .bie a b => Sys2Proof.Machine.execBie a b s

end Sys2Proof.Machine
end

