-- ==== Sys2Proof/Machine/Step.lean ====
section
/-! DEFINITION. clock(), the one transition of the core (40_pipeline.md R110, R111). -/

namespace Sys2Proof.Machine

/-- One clock (40_pipeline.md R111): write-back of the instruction in EX, execute of the instruction in ID,
decode, fetch at the pc that leaves, and the program-counter advance. -/
def step (s : State) : Host.Outcome State Fault Refusal :=
  match exec s.exReg (enterWriteBack s) with
  | .fault r => .fault r
  | .refused r => .refused r
  | .next s₁ =>
    match exec s₁.idReg (enterExecute s₁) with
    | .fault r => .fault r
    | .refused r => .refused r
    | .next s₂ => .next (endClock s₂)

/-- `s` with the instruction of an opcode-table word where the next clock takes the instruction it executes:
the ID register (40_pipeline.md R113; log entry 3).  A word that spells no instruction cannot be in the core
(30_encoding.md R82) and changes nothing. -/
def State.withFetchWord (s : State) (nbits w : Nat) : State :=
  match decodeTableWord nbits w with
  | some i => { s with idReg := i }
  | none => s

end Sys2Proof.Machine
end

