-- ==== Sys2Proof/Machine/Assembler.lean ====
section
/-! DEFINITION. The assembler's syntax and its checks (30_encoding.md R87 to R103): from source text to a Program or diagnostics. -/

namespace Sys2Proof.Machine

/-- A word of a source line. -/
abbrev Token := List Char

/-! ## Lines and tokens -/

/-- Upper-case, then cut at the first `;` (30_encoding.md R87).  Letters outside ASCII stay: log entry 6. -/
def normaliseLine (line : List Char) : List Char :=
  (line.map Char.toUpper).takeWhile fun c => c != ';'

/-- Split at white space (30_encoding.md R88); `cur` is the token being read.  Log entry 6. -/
def tokensFrom (cur : Token) : List Char → List Token
  | [] => if cur.isEmpty then [] else [cur]
  | c :: cs =>
    if c.isWhitespace then
      if cur.isEmpty then tokensFrom [] cs else cur :: tokensFrom [] cs
    else tokensFrom (cur ++ [c]) cs

/-- The tokens of a source line (30_encoding.md R87, R88). -/
def tokensOfLine (line : List Char) : List Token := tokensFrom [] (normaliseLine line)

/-- The lines of a source text, one instruction a line (30_encoding.md R87); `cur` is the line being read.
A last line break opens no further line, and the empty text has no lines: log entry 7. -/
def linesFrom (cur : List Char) : List Char → List (List Char)
  | [] => if cur.isEmpty then [] else [cur]
  | c :: cs => if c = '\n' then cur :: linesFrom [] cs else linesFrom (cur ++ [c]) cs

/-! ## Diagnostics (30_encoding.md R100) -/

/-- The two operand slots. -/
inductive Slot where
  | a | b
  deriving DecidableEq, Repr

/-- What a diagnostic says (30_encoding.md R100). -/
inductive Message where
  | notAValidInstruction
  | noAluArguments
  | malformedInstruction
  | missingOperand
  | notAValidOperand (token : Token)
  | kindMismatch (expected : OperandKind) (slot : Slot) (found : OperandKind)
  | programExceeds32
  deriving DecidableEq, Repr

/-- Errors refuse the Program; warnings "alone never block success" (30_encoding.md R99). -/
inductive Severity where
  | error | warning
  deriving DecidableEq, Repr

/-- "Each diagnostic is a pair (0-based line number, message)" (30_encoding.md R100), with its severity. -/
structure Diagnostic where
  line : Nat
  severity : Severity
  message : Message
  deriving DecidableEq, Repr

/-- The spelling of a kind in a message (30_encoding.md R100). -/
def kindName : OperandKind → String
  | .register => "Register"
  | .memoryAddress => "MemoryAddress"
  | .immediate => "Immediate"
  | .port => "Port"

/-- The spelling of a slot in a message (30_encoding.md R96). -/
def slotName : Slot → String
  | .a => "A"
  | .b => "B"

/-- The text of a message (30_encoding.md R100); "no claim may depend on exact wording"
(93_implementation_defined.md U14). -/
def Message.text : Message → String
  | .notAValidInstruction => "not a valid instruction"
  | .noAluArguments => "operation does not take ALU arguments"
  | .malformedInstruction => "malformed instruction"
  | .missingOperand => "missing operand"
  | .notAValidOperand _ => "not a valid operand"
  | .kindMismatch k slot k' =>
    "operation takes a " ++ kindName k ++ " for operand " ++ slotName slot ++ ", not a " ++ kindName k'
  | .programExceeds32 => "program exceeds 32 instructions"

/-! ## Operands -/

/-- The value of a decimal digit. -/
def digitValue (c : Char) : Nat := c.toNat - 48

/-- "bare decimal digits" (30_encoding.md R89), as an unbounded number. -/
def decimalValue? (t : Token) : Option Nat :=
  if !t.isEmpty && t.all Char.isDigit then
    some (t.foldl (fun n c => 10 * n + digitValue c) 0)
  else none

/-- A binary literal: `B`, then `0` and `1` characters, underscores removed, most significant first
(30_encoding.md R90); `B` with no digits is 0 (R91). -/
def binaryValue? (t : Token) : Option Nat :=
  match t with
  | [] => none
  | c :: cs =>
    let ds := cs.filter fun d => d != '_'
    if c == 'B' && ds.all (fun d => d == '0' || d == '1') then
      some (ds.foldl (fun n d => 2 * n + digitValue d) 0)
    else none

/-- A literal's 8-bit value; above 255 it is not a valid operand (30_encoding.md R91). -/
def byteOfLiteral? (n : Option Nat) : Option Byte :=
  match n with
  | some v => if v ≤ 255 then some (BitVec.ofNat 8 v) else none
  | none => none

/-- What may follow a sigil: a binary literal or a decimal number (30_encoding.md R89, R91). -/
def sigilValue? (t : Token) : Option Byte :=
  byteOfLiteral? ((binaryValue? t).orElse fun _ => decimalValue? t)

/-- The operand of that kind, if the value is one. -/
def operandOf (k : OperandKind) (v : Option Byte) : Option Operand := v.map fun n => ⟨k, n⟩

/-- An operand token, tried in the order of 30_encoding.md R89; none is "not a valid operand". -/
def parseOperand (t : Token) : Option Operand :=
  match decimalValue? t with
  | some n => operandOf .immediate (byteOfLiteral? (some n))
  | none =>
    match t with
    | 'R' :: rest => operandOf .register (sigilValue? rest)
    | '#' :: rest => operandOf .memoryAddress (sigilValue? rest)
    | '%' :: rest => operandOf .port (sigilValue? rest)
    | _ => operandOf .immediate (byteOfLiteral? (binaryValue? t))

/-! ## Mnemonics -/

/-- The spelling of an operation (30_encoding.md R92). -/
def operationName : Operation → Token
  | .noop => ['N', 'O', 'O', 'P']
  | .imm => ['I', 'M', 'M']
  | .mov => ['M', 'O', 'V']
  | .add => ['A', 'D', 'D']
  | .addc => ['A', 'D', 'D', 'C']
  | .shr => ['S', 'H', 'R']
  | .not => ['N', 'O', 'T']
  | .out => ['O', 'U', 'T']
  | .jmp => ['J', 'M', 'P']
  | .bie => ['B', 'I', 'E']

/-- The operation table (30_encoding.md R71, R92). -/
def operationTable : List Operation := [.noop, .imm, .mov, .add, .addc, .shr, .not, .out, .jmp, .bie]

/-- A verbatim match against the operation table (30_encoding.md R92). -/
def operationNamed (t : Token) : Option Operation := operationTable.find? fun op => operationName op == t

/-- The mode a stripped first character gives (30_encoding.md R93); none for every other character, a letter or
not: log entry 12. -/
def modeOfLetter (c : Char) : Option AddrMode :=
  if c = 'U' then some .u else if c = 'S' then some .s else if c = 'X' then some .x else none

/-- The first token: a verbatim match first, then with its first character stripped (30_encoding.md R92, R93).
DESIGN CHOICE, log entry 12: a stripped character that is no letter (`1ADD`) is a malformed instruction too. -/
def resolveMnemonic (t : Token) : Except Message (Operation × AddrMode) :=
  match operationNamed t with
  | some op => .ok (op, .none)
  | none =>
    match t with
    | [] => .error .notAValidInstruction
    | c :: cs =>
      match operationNamed cs with
      | none => .error .notAValidInstruction
      | some op =>
        if op.isAlu then
          match modeOfLetter c with
          | some m => .ok (op, m)
          | none => .error .malformedInstruction
        else .error .noAluArguments

/-! ## Lines -/

/-- Fill one slot from the tokens left: `Immediate(0)` where the slot is not consumed (30_encoding.md R94), an
error where a token is missing (R95) or is no operand (R89), a warning on another kind (R96). -/
def takeSlot (required : Option OperandKind) (slot : Slot) (ts : List Token) :
    Except Message (Operand × List Message × List Token) :=
  match required, ts with
  | none, ts => .ok (.unused, [], ts)
  | some _, [] => .error .missingOperand
  | some k, t :: rest =>
    match parseOperand t with
    | none => .error (.notAValidOperand t)
    | some o => .ok (o, if o.kind = k then [] else [.kindMismatch k slot o.kind], rest)

/-- What one line yields: an instruction unless it has an error, and its messages (30_encoding.md R99, R100). -/
structure LineResult where
  instr : Option Instr
  messages : List (Severity × Message)
  deriving DecidableEq, Repr

/-- Slots A then B of a resolved line; the first error ends the line (log entry 8), tokens left over are
ignored (30_encoding.md R97). -/
def parseOperands (op : Operation) (mode : AddrMode) (ts : List Token) : LineResult :=
  let req := operandRequirements op mode
  match takeSlot req.1 .a ts with
  | .error e => ⟨none, [(.error, e)]⟩
  | .ok (oa, warnA, rest) =>
    match takeSlot req.2 .b rest with
    | .error e => ⟨none, warnA.map (fun m => (.warning, m)) ++ [(.error, e)]⟩
    | .ok (ob, warnB, _) =>
      ⟨RawInstr.toInstr? ⟨op, mode, oa, ob⟩, (warnA ++ warnB).map fun m => (.warning, m)⟩

/-- The tokens of a line: none is a canonical no-op, "not an error" (30_encoding.md R88). -/
def parseTokens (ts : List Token) : LineResult :=
  match ts with
  | [] => ⟨some canonicalNoop, []⟩
  | t :: rest =>
    match resolveMnemonic t with
    | .error e => ⟨none, [(.error, e)]⟩
    | .ok (op, mode) => parseOperands op mode rest

/-- One source line. -/
def parseLine (line : List Char) : LineResult := parseTokens (tokensOfLine line)

/-! ## The Program -/

/-- The diagnostics of the lines, in source-line order (30_encoding.md R99, R100). -/
def diagnosticsFrom : Nat → List LineResult → List Diagnostic
  | _, [] => []
  | n, r :: rs => r.messages.map (fun m => ⟨n, m.1, m.2⟩) ++ diagnosticsFrom (n + 1) rs

/-- The severity of a source of more than 32 instructions (30_encoding.md R98).  DESIGN CHOICE, log entry 13: under
`error` there is one error, with the text of the size warning, and no warning beside it. -/
def oversizeSeverity : OversizePolicy → Severity
  | .warnTruncate => .warning
  | .error => .error

/-- The first 32 instructions, padded with canonical no-ops to exactly 32 (30_encoding.md R79, R98). -/
def padProgram (is : List Instr) : Program :=
  ⟨((is ++ List.replicate 32 canonicalNoop).take 32).toArray, by simp⟩

/-- The assembler's answer: a Program or none, and the diagnostics (30_encoding.md R99). -/
structure Assembly where
  program : Option Program
  diagnostics : List Diagnostic
  deriving DecidableEq, Repr

/-- Assemble the lines of a source: every line is parsed, and one error refuses the Program
(30_encoding.md R98, R99).  The size diagnostic comes last, at the line after the source (log entry 9), once and
with one text under both policies (log entry 13). -/
def assemble (policy : OversizePolicy) (lines : List (List Char)) : Assembly :=
  let results := lines.map parseLine
  let instrs := results.filterMap LineResult.instr
  let size : List Diagnostic :=
    if instrs.length ≤ 32 then [] else [⟨lines.length, oversizeSeverity policy, .programExceeds32⟩]
  let ds := diagnosticsFrom 0 results ++ size
  ⟨if ds.any (fun d => d.severity == .error) then none else some (padProgram instrs), ds⟩

/-- Assemble a source text. -/
def assembleText (policy : OversizePolicy) (source : String) : Assembly :=
  assemble policy (linesFrom [] source.toList)

/-! ## The syntax of every instruction (30_encoding.md R102) -/

/-- One decimal digit. -/
def digitChar (n : Nat) : Char := Char.ofNat (48 + n)

/-- A byte as a decimal number, with no leading zero. -/
def decimalToken (v : Byte) : Token :=
  let n := v.toNat
  if n < 10 then [digitChar n]
  else if n < 100 then [digitChar (n / 10), digitChar (n % 10)]
  else [digitChar (n / 100), digitChar (n / 10 % 10), digitChar (n % 10)]

/-- An operand as 30_encoding.md R89 spells it. -/
def operandToken (o : Operand) : Token :=
  match o.kind with
  | .register => 'R' :: decimalToken o.val
  | .memoryAddress => '#' :: decimalToken o.val
  | .immediate => decimalToken o.val
  | .port => '%' :: decimalToken o.val

/-- The mode letter in front of an ALU mnemonic (30_encoding.md R93). -/
def modeLetters : AddrMode → Token
  | .none => []
  | .s => ['S']
  | .u => ['U']
  | .x => ['X']

/-- The tokens of an instruction's spelling (30_encoding.md R102): the mnemonic, then the operands of the
slots that are consumed (R76). -/
def syntaxTokens (i : Instr) : List Token :=
  let req := operandRequirements i.op i.mode
  (modeLetters i.mode ++ operationName i.op) ::
    ((if req.1.isSome then [operandToken i.opA] else []) ++ (if req.2.isSome then [operandToken i.opB] else []))

/-- The line with those tokens, "separated by whitespace only" (30_encoding.md R102). -/
def syntaxLine (i : Instr) : List Char := [' '].intercalate (syntaxTokens i)

end Sys2Proof.Machine
end

