-- ==== Sys2Proof/Machine/External.lean ====
section
/-! DEFINITION. What the host does to the core from outside a clock: the load path, the reset input, the clock edge, the input lines and the snapshot (10_state.md R37, R38). -/

namespace Sys2Proof.Machine

/-- Construction with a Program (10_state.md R36, 70_reset_and_hazards.md R200). -/
def construct (p : Program) : State := { State.reset with imem := p }

/-- The instructions of a list of encodings, or the first address that holds none. -/
def readStore {α : Type} (read : α → Option Instr) : Nat → List α → Except Nat (List Instr)
  | _, [] => .ok []
  | addr, w :: ws =>
    match read w with
    | none => .error addr
    | some i =>
      match readStore read (addr + 1) ws with
      | .error bad => .error bad
      | .ok is => .ok (i :: is)

/-- Load a store and construct the core with it; an ill-formed store is refused by name (30_encoding.md
R81, R82; log entry 11). -/
def loadWith {α : Type} (read : α → Option Instr) (store : List α) : Host.Outcome State Fault Refusal :=
  match readStore read 0 store with
  | .error bad => .refused (.notAnInstruction bad)
  | .ok is =>
    if h : is.length = 32 then .next (construct ⟨is.toArray, h⟩)
    else .refused (.notThirtyTwoEntries is.length)

/-- The load path on records (30_encoding.md R70, R81). -/
def loadRecords (store : List RawInstr) : Host.Outcome State Fault Refusal :=
  loadWith RawInstr.toInstr? store

/-- The load path on the 32-bit words that spell the records (30_encoding.md R74, R82). -/
def loadWords (store : List Word) : Host.Outcome State Fault Refusal :=
  loadWith (fun w => (decode w).toOption) store

/-- What `rst` does at an edge: the values of 10_state.md R36, IMEM kept (R37, 70_reset_and_hazards.md R200). -/
def State.rst (s : State) : State := construct s.imem

/-- One active edge of `clk`: with `rst` asserted the reset values "instead of performing clock()", otherwise
exactly one clock() (10_state.md R37). -/
def clockEdge (rst : Bool) (s : State) : Host.Outcome State Fault Refusal :=
  if rst then .next s.rst else step s

/-- The host sets one input line, between clocks (10_state.md R32, R37). -/
def setInput (line : Fin 8) (v : Byte) (s : State) : State :=
  { s with inp := s.inp.set line.val v line.isLt }

/-- What the host reads after each clock (10_state.md R38). -/
structure Snapshot where
  pc : PcAddr
  ifOp : Operation
  idOp : Operation
  exOp : Operation
  wbOp : Operation
  acc : Byte
  flags : Flags
  out : Vector Byte 8
  x : Vector Byte 8
  deriving DecidableEq, Repr

/-- The snapshot of a state (10_state.md R38); the registers are read, so register 0 shows 0 (R22). -/
def State.snapshot (s : State) : Snapshot where
  pc := s.pc
  ifOp := s.ifReg.op
  idOp := s.idReg.op
  exOp := s.exReg.op
  wbOp := s.wbReg.op
  acc := s.acc
  flags := s.flags
  out := s.out
  x := Vector.ofFn fun i => readReg (BitVec.ofNat 8 i.val) s

end Sys2Proof.Machine
end

