-- ==== Sys2Proof/Safety.lean ====
section
/-! DEFINITION. The terms the statements are written in: an instruction run whole, a drained pipeline, and the invariant of a clock. -/

namespace Sys2Proof.Machine

/-- Both stages of one instruction on the same state, execute then write-back, as in "a machine that runs
one whole instruction per step" (70_reset_and_hazards.md R211). -/
def runWhole (i : Instr) (s : State) : Host.Outcome State Fault Refusal :=
  match exec i { s with stage := .execute } with
  | .fault r => .fault r
  | .refused r => .refused r
  | .next t => exec i { t with stage := .writeBack }

/-- The instructions of a list, each run whole, in order. -/
def runAll : List Instr → State → Host.Outcome State Fault Refusal
  | [], s => .next s
  | i :: is, s =>
    match runWhole i s with
    | .fault r => .fault r
    | .refused r => .refused r
    | .next t => runAll is t

/-- `Writeback(I)`, operation by operation (40_pipeline.md R112). -/
def writeback (i : Instr) (s : State) : State :=
  match i with
  | .imm a b => writeReg a.val b.val s
  | .mov a b => writeReg a.val (readReg b.val s) s
  | .out a b => portWrite a.val (readReg b.val s) s
  | .add a _ | .sadd a _ | .uadd a _ => writeReg a.val s.acc s
  | .addc a _ | .saddc a _ | .uaddc a _ => writeReg a.val s.acc s
  | .noop _ _ | .xadd _ _ | .xaddc _ _ | .shr _ _ | .not _ _ | .jmp _ _ | .bie _ _ => s

/-- `Branch(I)` (40_pipeline.md R113). -/
def branch (i : Instr) (s : State) : State :=
  match i with
  | .jmp a _ => { s with pc := a.val.setWidth 5 }
  | .noop _ _ | .imm _ _ | .mov _ _ | .out _ _ | .add _ _ | .sadd _ _ | .uadd _ _ | .xadd _ _ => s
  | .addc _ _ | .saddc _ _ | .uaddc _ _ | .xaddc _ _ | .shr _ _ | .not _ _ | .bie _ _ => s

/-- The state in which the instruction in EX has written back too: what the next clock's write-back stage
will make of it (40_pipeline.md R112). -/
def drained (s : State) : Host.Outcome State Fault Refusal := exec s.exReg (enterWriteBack s)

/-- The instructions that enter the execute stage in the next `n` clocks, in execution order
(40_pipeline.md R113). -/
def executedIn : Nat → State → List Instr
  | 0, _ => []
  | n + 1, s =>
    match step s with
    | .next t => s.idReg :: executedIn n t
    | .fault _ => []
    | .refused _ => []

/-- What programs compute with: registers, output latches, accumulator and flags agree.  The program
counter, the pipeline registers and the store are not compared. -/
def sameData (s t : State) : Prop :=
  s.x = t.x ∧ s.out = t.out ∧ s.acc = t.acc ∧ s.flags = t.flags

/-- Exactly one of eq, gt and lt is true (40_pipeline.md R120). -/
def Flags.exactlyOneCompare (f : Flags) : Prop :=
  (f.eq = true ∧ f.gt = false ∧ f.lt = false) ∨ (f.eq = false ∧ f.gt = true ∧ f.lt = false) ∨
    (f.eq = false ∧ f.gt = false ∧ f.lt = true)

/-- The invariant of the core between clocks: cell 0 of the register file holds 0 (10_state.md R22), and an
instruction in EX that is neither ADD nor ADDC left acc 0 and ov false (40_pipeline.md R122,
70_reset_and_hazards.md R212). -/
structure State.Inv (s : State) : Prop where
  cellZero : s.x[0] = 0#8
  accLinked : s.exReg.op.isAlu = false → s.acc = 0#8 ∧ s.flags.ov = false
  betweenClocks : s.stage = .writeBack

end Sys2Proof.Machine

namespace Sys2Proof

/-- The instruction with other operand kinds and the same values (30_encoding.md R83). -/
def Instr.withKinds (ka kb : OperandKind) : Instr → Instr
  | .noop a b => .noop ⟨ka, a.val⟩ ⟨kb, b.val⟩
  | .imm a b => .imm ⟨ka, a.val⟩ ⟨kb, b.val⟩
  | .mov a b => .mov ⟨ka, a.val⟩ ⟨kb, b.val⟩
  | .add a b => .add ⟨ka, a.val⟩ ⟨kb, b.val⟩
  | .sadd a b => .sadd ⟨ka, a.val⟩ ⟨kb, b.val⟩
  | .uadd a b => .uadd ⟨ka, a.val⟩ ⟨kb, b.val⟩
  | .xadd a b => .xadd ⟨ka, a.val⟩ ⟨kb, b.val⟩
  | .addc a b => .addc ⟨ka, a.val⟩ ⟨kb, b.val⟩
  | .saddc a b => .saddc ⟨ka, a.val⟩ ⟨kb, b.val⟩
  | .uaddc a b => .uaddc ⟨ka, a.val⟩ ⟨kb, b.val⟩
  | .xaddc a b => .xaddc ⟨ka, a.val⟩ ⟨kb, b.val⟩
  | .shr a b => .shr ⟨ka, a.val⟩ ⟨kb, b.val⟩
  | .not a b => .not ⟨ka, a.val⟩ ⟨kb, b.val⟩
  | .out a b => .out ⟨ka, a.val⟩ ⟨kb, b.val⟩
  | .jmp a b => .jmp ⟨ka, a.val⟩ ⟨kb, b.val⟩
  | .bie a b => .bie ⟨ka, a.val⟩ ⟨kb, b.val⟩

end Sys2Proof
end

