-- ==== Sys2Proof/Certificates/Slice0/Obligations.lean ====
section
/-! DEFINITION. The statements for the provers, from the numbered rules of the spec. -/

open Sys2Proof Sys2Proof.Machine

namespace Sys2Proof.Claims

/-- `s` asked for the execute stage of an instruction. -/
abbrev inExecute (s : State) : State := { s with stage := .execute }

/-- `s` asked for the write-back stage of an instruction. -/
abbrev inWriteBack (s : State) : State := { s with stage := .writeBack }

/-- The execute stage of `i`, with ALU inputs `ia` and `ib` and wide result `sum`: it answers a next state
with the four flags of 40_pipeline.md R120 and the accumulator of R121, and changes nothing else. -/
def runsAlu (i : Instr) (ia ib : State → Byte) (sum : State → Nat) : Prop :=
  ∀ s, ∃ t, exec i (inExecute s) = .next t ∧
    t.flags = ⟨decide (ia s = ib s), decide ((ib s).toNat < (ia s).toNat), decide ((ia s).toNat < (ib s).toNat),
      decide (255 < sum s)⟩ ∧
    (sum s ≤ 255 → t.acc.toNat = sum s) ∧
    (256 ≤ sum s → sum s ≤ 510 → t.acc.toNat = sum s - 255) ∧
    (sum s = 511 → t.acc = Config.addc511Acc) ∧
    { t with flags := s.flags, acc := s.acc } = inExecute s

/-- The write-back stage of `i` changes nothing. -/
def writesNothing (i : Instr) : Prop :=
  ∀ s, exec i (inWriteBack s) = .next (inWriteBack s)

/-- The write-back stage of `i` writes `val` to register `dst`, if that is one of 1 to 7, and changes nothing
else. -/
def writesRegister (i : Instr) (dst : Byte) (val : State → Byte) : Prop :=
  ∀ s, ∃ t, exec i (inWriteBack s) = .next t ∧
    (∀ j, readReg j t = if j = dst ∧ 1 ≤ dst.toNat ∧ dst.toNat ≤ 7 then val s else readReg j s) ∧
    t.x[0] = s.x[0] ∧
    { t with x := s.x } = inWriteBack s

/-- The write-back stage of `i` writes `val` to output latch `dst`, if that is one of 0 to 7, and changes
nothing else. -/
def writesLatch (i : Instr) (dst : Byte) (val : State → Byte) : Prop :=
  ∀ s, ∃ t, exec i (inWriteBack s) = .next t ∧
    (∀ n, ∀ h : n < 8, t.out[n] = if n = dst.toNat then val s else s.out[n]) ∧
    { t with out := s.out } = inWriteBack s

/-- The instruction at address `n` mod 32. -/
def imemAt (n : Nat) (s : State) : Instr := s.imem[n % 32]'(Nat.mod_lt n (Nat.succ_pos 31))

/-- `i` is a JMP. -/
def isJmp (i : Instr) : Prop := i.op = .jmp

/-- The instruction writes the register its operand A names, in its write-back stage (10_state.md R25). -/
def writesOperandA (i : Instr) : Prop :=
  i.op = .imm ∨ i.op = .mov ∨ (i.op = .add ∧ i.mode ≠ .x) ∨ (i.op = .addc ∧ i.mode ≠ .x)

/-- clock(), line by line as 40_pipeline.md R111 writes it. -/
def clock (s : State) : State :=
  let s := { s with wbReg := s.exReg }
  let s := writeback s.wbReg s
  let s := { s with exReg := s.idReg }
  let s := branch s.exReg s
  let s := aluStep s.exReg.op s.exReg.mode s.exReg.opA s.exReg.opB s
  let s := { s with idReg := s.ifReg }
  let s := { s with ifReg := ifetch s.pc s }
  { s with pc := s.pc + 1#5 }

/-- `n` clocks. -/
abbrev run (n : Nat) (s : State) : Host.Outcome State Fault Refusal := Host.Core.run Sys2Proof.core n s

/-- The state with every operand kind replaced by Register. -/
def eraseKinds (s : State) : State :=
  let e := Instr.withKinds .register .register
  { s with ifReg := e s.ifReg, idReg := e s.idReg, exReg := e s.exReg, wbReg := e s.wbReg, imem := s.imem.map e }

/-- The messages of one consumed slot (30_encoding.md R96). -/
def slotWarnings (k : OperandKind) (slot : Slot) (o : Operand) : List (Severity × Message) :=
  if o.kind = k then [] else [(.warning, .kindMismatch k slot o.kind)]

end Sys2Proof.Claims

open Sys2Proof.Claims

/-! ## Registers, ports, flags, pipeline registers -/

/-- 10_state.md R23: a write to x[1] to x[7] stores the value, it is 0 at reset, and a clock changes what such
a register reads only when the instruction in write-back writes it. -/
def Obligations.RegistersOneToSevenAreStorage : Prop :=
  (∀ i v s, 1 ≤ i.toNat → i.toNat ≤ 7 → readReg i (writeReg i v s) = v) ∧
  (∀ i, 1 ≤ i.toNat → i.toNat ≤ 7 → readReg i State.reset = 0#8) ∧
  (∀ i s s', 1 ≤ i.toNat → i.toNat ≤ 7 → step s = .next s' → readReg i s' ≠ readReg i s →
    writesOperandA s.exReg ∧ s.exReg.opA.val = i)

/-- 10_state.md R22 and R24 (decisions D8 and D7 of 92_eei_decisions.md): index 0 and 8 to 255 read 0 and
discard writes; the snapshot shows x[0] as 0. -/
def Obligations.RegisterZeroAndBeyondSevenReadZero : Prop :=
  (∀ i v s, i.toNat = 0 ∨ 8 ≤ i.toNat → readReg i s = 0#8 ∧ writeReg i v s = s) ∧
  (∀ s : State, s.snapshot.x[0] = 0#8)

/-- 10_state.md R25, its sentence on writers: only write-back writes a register, at operand A, for IMM, MOV and
ADD and ADDC in modes None, S and U. -/
def Obligations.OnlyWriteBackWritesRegisters : Prop :=
  (∀ i s t, exec i (inExecute s) = .next t → t.x = s.x) ∧
  (∀ i s t, exec i (inWriteBack s) = .next t → t.x ≠ s.x →
    writesOperandA i ∧ ∀ n, ∀ h : n < 8, n ≠ i.opA.val.toNat → t.x[n] = s.x[n])

/-- 10_state.md R31.  The third clause names every latch after a clock from any latches `o`: one OUT writes, from
the register file alone, the others as they were; nothing else depends on `o`. -/
def Obligations.OutputLatchesChangeOnlyByOut : Prop :=
  (∀ n, ∀ h : n < 8, State.reset.out[n] = 0#8) ∧
  (∀ s s', step s = .next s' → s'.out ≠ s.out → s.exReg.op = .out) ∧
  (∀ s s' o, step s = .next s' → ∃ o', step { s with out := o } = .next { s' with out := o' } ∧
    ∀ n, ∀ h : n < 8,
      o'[n] = if s.exReg.op = .out ∧ n = s.exReg.opA.val.toNat then readReg s.exReg.opB.val s else o[n]) ∧
  (∀ s : State, s.snapshot.out = s.out) ∧
  (∀ p v s, 8 ≤ p.toNat → portWrite p v s = s)

/-- 10_state.md R28: all false at reset; recomputed from the two ALU inputs by every execute stage; no
instruction reads one, so a clock does not depend on them. -/
def Obligations.FlagsAreRecomputedAndNeverRead : Prop :=
  State.reset.flags = ⟨false, false, false, false⟩ ∧
  (∀ i s, ∃ t, exec i (inExecute s) = .next t ∧
    t.flags = aluFlags (aluInputA i.mode i.opA s) (aluInputB i.opB s)
      (aluResult i.op (aluInputA i.mode i.opA s) (aluInputB i.opB s))) ∧
  (∀ i s f, exec i (inExecute { s with flags := f }) = exec i (inExecute s)) ∧
  (∀ s f, step { s with flags := f } = step s) ∧
  (∀ s : State, s.snapshot.flags = s.flags)

/-- 10_state.md R29: the pipeline registers are the canonical no-op at reset; each is written by its own stage
only, from the register before it; WB is read by nothing. -/
def Obligations.PipelineRegistersShift : Prop :=
  (State.reset.ifReg = .noop ⟨.immediate, 0#8⟩ ⟨.immediate, 0#8⟩ ∧ State.reset.idReg = State.reset.ifReg ∧
    State.reset.exReg = State.reset.ifReg ∧ State.reset.wbReg = State.reset.ifReg) ∧
  (∀ s, ∃ s', step s = .next s' ∧ s'.wbReg = s.exReg ∧ s'.exReg = s.idReg ∧ s'.idReg = s.ifReg ∧
    ∃ a, s'.ifReg = imemAt a s) ∧
  (∀ s w, step { s with wbReg := w } = step s) ∧
  (∀ i s t, exec i s = .next t → t.ifReg = s.ifReg ∧ t.idReg = s.idReg ∧ t.exReg = s.exReg ∧ t.wbReg = s.wbReg)

/-- 20_memory.md R61: no instruction and no number of clocks changes the instruction store. -/
def Obligations.InstructionStoreNeverChanges : Prop :=
  (∀ i s t, exec i s = .next t → t.imem = s.imem) ∧
  (∀ n s s', run n s = .next s' → s'.imem = s.imem)

/-! ## clock() -/

/-- 40_pipeline.md R110: every state has exactly one successor, and no clock can fail; an active `clk` edge is
one clock. -/
def Obligations.EveryClockHasOneSuccessor : Prop :=
  (∀ s, ∃! s', step s = .next s') ∧ (∀ n s, ∃ s', run n s = .next s') ∧ (∀ s, clockEdge false s = step s)

/-- A step runs the instruction in EX through its write-back stage, then the instruction in ID through its
execute stage, then decode, fetch and the advance (the stage field is the model's own, log entry 1). -/
def Obligations.StepRunsTheInstructionsInExAndId : Prop :=
  ∀ s, ∃ t₁ t₂, exec s.exReg (inWriteBack { s with wbReg := s.exReg }) = .next t₁ ∧
    exec s.idReg (inExecute { t₁ with exReg := s.idReg }) = .next t₂ ∧
    step s = .next (inWriteBack
      { t₂ with idReg := s.ifReg, ifReg := imemAt t₂.pc.toNat s, pc := BitVec.ofNat 5 (t₂.pc.toNat + 1) })

/-- Step is clock(), stage by stage in the spec's order (40_pipeline.md R111); that it leaves the stage field at
write-back is the model's own choice, log entry 1. -/
def Obligations.StepIsTheSequentialClock : Prop :=
  ∀ s, step s = .next (inWriteBack (clock s))

/-- 40_pipeline.md R113: EX takes ID; the branch writes pc only for JMP; the ALU step runs for every
instruction. -/
def Obligations.ExecuteStageBranchesThenRunsTheAlu : Prop :=
  (∀ s s', step s = .next s' → s'.exReg = s.idReg) ∧
  (∀ i s, ∃ t, exec i (inExecute s) = .next t ∧
    t = aluStep i.op i.mode i.opA i.opB { inExecute s with pc := t.pc } ∧ (t.pc ≠ s.pc → i.op = .jmp))

/-- 40_pipeline.md R114, R115, R116: ID takes IF, IF takes the entry at the pc the execute stage left, and pc
becomes that pc plus 1, wrapping to 0 at 32. -/
def Obligations.DecodeFetchAndAdvance : Prop :=
  ∀ s, ∃ t₁ t₂ s', exec s.exReg (enterWriteBack s) = .next t₁ ∧ exec s.idReg (enterExecute t₁) = .next t₂ ∧
    step s = .next s' ∧ s'.idReg = s.ifReg ∧ s'.ifReg = imemAt t₂.pc.toNat s ∧
    s'.pc.toNat = (t₂.pc.toNat + 1) % 32

/-- 42_alu.md R160: sums are exact, narrowed by Wrap (not modulo 256), and ov is set exactly above 255. -/
def Obligations.SumIsExactThenNarrowed : Prop :=
  ∀ i s, i.op.isAlu = true → ∃ t, exec i (inExecute s) = .next t ∧
    ∃ r, r = (aluInputA i.mode i.opA s).toNat + (aluInputB i.opB s).toNat + (if i.op = .addc then 1 else 0) ∧
      r ≤ 511 ∧ (t.flags.ov = true ↔ 255 < r) ∧ (r ≤ 255 → t.acc.toNat = r) ∧
      (256 ≤ r → r ≤ 510 → t.acc.toNat = r - 255 ∧ t.acc.toNat = r % 256 + 1)

/-! ## The instructions: both stages, with what each leaves alone -/

/-- NOOP, SHR, NOT and BIE only run the ALU step with result 0 (41_data_movement.md R140, 42_alu.md R158 and
R159 by decision D11, 43_control.md R171; flags by decision D10). -/
def Obligations.NoopShrNotBieOnlyRunTheAluStep : Prop :=
  ∀ a b, ∀ i ∈ [Instr.noop a b, Instr.shr a b, Instr.not a b, Instr.bie a b],
    runsAlu i (readReg a.val) (readReg b.val) (fun _ => 0) ∧ writesNothing i

/-- IMM: x[a.val] <- b.val in write-back (41_data_movement.md R141; flags by decision D10). -/
def Obligations.ImmLoadsItsImmediate : Prop :=
  ∀ a b, runsAlu (.imm a b) (readReg a.val) (readReg b.val) (fun _ => 0) ∧
    writesRegister (.imm a b) a.val (fun _ => b.val)

/-- MOV: x[a.val] <- x[b.val] in write-back (41_data_movement.md R142; flags by decision D10). -/
def Obligations.MovCopiesItsSource : Prop :=
  ∀ a b, runsAlu (.mov a b) (readReg a.val) (readReg b.val) (fun _ => 0) ∧
    writesRegister (.mov a b) a.val (readReg b.val)

/-- OUT: out[a.val] <- x[b.val] in write-back, dropped from index 8 on (41_data_movement.md R143; flags by
decision D10). -/
def Obligations.OutWritesItsLatch : Prop :=
  ∀ a b, runsAlu (.out a b) (readReg a.val) (readReg b.val) (fun _ => 0) ∧
    writesLatch (.out a b) a.val (readReg b.val)

/-- ADD and SADD: x[a] + x[b], then x[a.val] <- acc (42_alu.md R150, R151). -/
def Obligations.AddAndSaddAddRegisters : Prop :=
  ∀ a b, ∀ i ∈ [Instr.add a b, Instr.sadd a b],
    runsAlu i (readReg a.val) (readReg b.val) (fun s => (readReg a.val s).toNat + (readReg b.val s).toNat) ∧
    writesRegister i a.val State.acc

/-- UADD: acc + x[b], then x[a.val] <- acc (42_alu.md R152). -/
def Obligations.UaddAddsToTheAccumulator : Prop :=
  ∀ a b, runsAlu (.uadd a b) State.acc (readReg b.val) (fun s => s.acc.toNat + (readReg b.val s).toNat) ∧
    writesRegister (.uadd a b) a.val State.acc

/-- XADD: acc + x[b], no register write (42_alu.md R153). -/
def Obligations.XaddAddsAndWritesNoRegister : Prop :=
  ∀ a b, runsAlu (.xadd a b) State.acc (readReg b.val) (fun s => s.acc.toNat + (readReg b.val s).toNat) ∧
    writesNothing (.xadd a b)

/-- ADDC and SADDC: x[a] + x[b] + 1, then x[a.val] <- acc (42_alu.md R154, R155); the sum 511 leaves the open
parameter (decision D12). -/
def Obligations.AddcAndSaddcAddOneMore : Prop :=
  ∀ a b, ∀ i ∈ [Instr.addc a b, Instr.saddc a b],
    runsAlu i (readReg a.val) (readReg b.val) (fun s => (readReg a.val s).toNat + (readReg b.val s).toNat + 1) ∧
    writesRegister i a.val State.acc

/-- UADDC: acc + x[b] + 1, then x[a.val] <- acc (42_alu.md R156; decision D12). -/
def Obligations.UaddcAddsOneMoreToTheAccumulator : Prop :=
  ∀ a b, runsAlu (.uaddc a b) State.acc (readReg b.val) (fun s => s.acc.toNat + (readReg b.val s).toNat + 1) ∧
    writesRegister (.uaddc a b) a.val State.acc

/-- XADDC: acc + x[b] + 1, no register write (42_alu.md R157; decision D12). -/
def Obligations.XaddcAddsOneMoreAndWritesNoRegister : Prop :=
  ∀ a b, runsAlu (.xaddc a b) State.acc (readReg b.val) (fun s => s.acc.toNat + (readReg b.val s).toNat + 1) ∧
    writesNothing (.xaddc a b)

/-- JMP: pc takes the low five bits of operand A's value (decision D9), the ALU step has result 0 (decision
D10), and write-back writes nothing (43_control.md R170). -/
def Obligations.JmpWritesThePc : Prop :=
  ∀ a b, (∀ s, ∃ t, exec (.jmp a b) (inExecute s) = .next t ∧ t.pc.toNat = a.val.toNat % 32 ∧ t.acc = 0#8 ∧
    t.flags = ⟨decide (readReg a.val s = readReg b.val s), decide ((readReg b.val s).toNat < (readReg a.val s).toNat),
      decide ((readReg a.val s).toNat < (readReg b.val s).toNat), false⟩ ∧
    { t with pc := s.pc, flags := s.flags, acc := s.acc } = inExecute s) ∧ writesNothing (.jmp a b)

/-- SADD behaves as ADD and SADDC as ADDC in every state (42_alu.md R151, R155, derived there). -/
def Obligations.ModeSEqualsModeNone : Prop :=
  ∀ a b s, exec (.sadd a b) s = exec (.add a b) s ∧ exec (.saddc a b) s = exec (.addc a b) s

/-- Run whole, ADD leaves in x[a.val] the narrowed sum of the registers as they were, and every other register
and every latch as it was (42_alu.md R150 with 70_reset_and_hazards.md R211). -/
def Obligations.AddRunWholeWritesItsSum : Prop :=
  ∀ a b s, ∃ t, runWhole (.add a b) s = .next t ∧
    t.acc = wrap ((readReg a.val s).toNat + (readReg b.val s).toNat) ∧
    (∀ j, readReg j t = if j = a.val ∧ 1 ≤ j.toNat ∧ j.toNat ≤ 7 then t.acc else readReg j s) ∧
    t.out = s.out ∧ t.pc = s.pc ∧ t.imem = s.imem

/-! ## The pipeline as a whole -/

/-- A clock whose executing instruction is neither ADD nor ADDC leaves acc 0 and ov false, and moves pc by one
unless it is a JMP (40_pipeline.md R122, 43_control.md R172, derived there). -/
def Obligations.NonAluClocksClearTheAccumulator : Prop :=
  ∀ s, s.idReg.op.isAlu = false → ∃ s', step s = .next s' ∧ s'.acc = 0#8 ∧ s'.flags.ov = false ∧
    (s.idReg.op ≠ .jmp → s'.pc.toNat = (s.pc.toNat + 1) % 32)

/-- In modes U and X the accumulator left by the clock before is input A, and the registers are read after the
write-back of the same clock (70_reset_and_hazards.md R212, 20_memory.md R51, derived there). -/
def Obligations.AccumulatorFeedsTheNextInstruction : Prop :=
  ∀ s, s.idReg.op.isAlu = true → s.idReg.mode = .u ∨ s.idReg.mode = .x →
    ∃ s' d, step s = .next s' ∧ drained s = .next d ∧
      s'.acc = wrap (aluResult s.idReg.op s.acc (readReg s.idReg.opB.val d)) ∧
      s'.flags = aluFlags s.acc (readReg s.idReg.opB.val d)
        (aluResult s.idReg.op s.acc (readReg s.idReg.opB.val d))

/-- After every clock exactly one of eq, gt and lt is true (40_pipeline.md R120, derived there). -/
def Obligations.ExactlyOneCompareFlagAfterAClock : Prop :=
  ∀ s s', step s = .next s' → s'.flags.exactlyOneCompare

/-- The invariant between clocks is kept by every clock, by `rst` and by the host's input lines (its clause on the
stage field is the model's own, log entry 1). -/
def Obligations.InvariantIsKept : Prop :=
  ∀ s : State, s.Inv →
    (∀ s', step s = .next s' → s'.Inv) ∧ s.rst.Inv ∧ (∀ line v, (setInput line v s).Inv)

/-- The invariant holds at reset and after construction with any Program (its clause on the stage field is the
model's own, log entry 1). -/
def Obligations.InvariantHoldsAtReset : Prop :=
  State.reset.Inv ∧ ∀ p : Program, (construct p).Inv

/-- The pipeline is the machine that runs one whole instruction per step: after any number of clocks from any
state, with the instruction in EX drained at both ends, registers, latches, accumulator and flags are those of
running the executed instructions whole, in execution order (70_reset_and_hazards.md R211, R212, derived
there). -/
def Obligations.PipelineRunsWholeInstructionsInOrder : Prop :=
  ∀ n s, ∃ s' d d' t, run n s = .next s' ∧ drained s = .next d ∧ drained s' = .next d' ∧
    (executedIn n s).length = n ∧ runAll (executedIn n s) d = .next t ∧ sameData d' t

/-- One delay slot: the instruction already in IF executes after the JMP, then the target, then its successor
(70_reset_and_hazards.md R213, derived there; the target's low five bits by decision D9). -/
def Obligations.JmpHasOneDelaySlot : Prop :=
  ∀ s a b, s.idReg = .jmp a b → ∃ s₁ s₂, step s = .next s₁ ∧ step s₁ = .next s₂ ∧
    s₁.exReg = .jmp a b ∧ s₁.pc.toNat = (a.val.toNat + 1) % 32 ∧
    s₁.idReg = s.ifReg ∧ s₁.ifReg = imemAt a.val.toNat s ∧
    s₂.exReg = s.ifReg ∧ s₂.idReg = imemAt a.val.toNat s ∧
    (¬isJmp s.ifReg → s₂.ifReg = imemAt (a.val.toNat + 1) s ∧ s₂.pc.toNat = (a.val.toNat + 2) % 32)

/-- A JMP in the delay slot: exactly the instruction at the first target runs between the two
(70_reset_and_hazards.md R214, derived there). -/
def Obligations.JmpInADelaySlot : Prop :=
  ∀ s a b a' b', s.idReg = .jmp a b → s.ifReg = .jmp a' b' →
    ∃ s₁ s₂ s₃, step s = .next s₁ ∧ step s₁ = .next s₂ ∧ step s₂ = .next s₃ ∧
      s₁.idReg = .jmp a' b' ∧ s₂.idReg = imemAt a.val.toNat s ∧ s₃.idReg = imemAt a'.val.toNat s ∧
      (¬isJmp (imemAt a.val.toNat s) → s₃.ifReg = imemAt (a'.val.toNat + 1) s)

/-- The first clocks after reset (70_reset_and_hazards.md R202, derived there), for every Program. -/
def Obligations.PipelineFillAfterReset : Prop :=
  ∀ p : Program, ∃ s₁ s₂ s₃ s₄, step (construct p) = .next s₁ ∧ step s₁ = .next s₂ ∧ step s₂ = .next s₃ ∧
    step s₃ = .next s₄ ∧
    (∀ s ∈ [s₁, s₂], s.acc = 0#8 ∧ s.flags = ⟨true, false, false, false⟩) ∧
    (∀ s ∈ [s₁, s₂, s₃], s.x = State.reset.x ∧ s.out = State.reset.out) ∧
    s₁.pc = 1#5 ∧ s₁.ifReg = p[0] ∧ s₂.pc = 2#5 ∧ s₂.idReg = p[0] ∧ s₃.exReg = p[0] ∧ s₄.wbReg = p[0]

/-- Program order with no JMP in the store (40_pipeline.md R125, derived there): where each instruction is
after clock n. -/
def Obligations.StraightLineProgramOrder : Prop :=
  ∀ (p : Program) (n : Nat), (∀ k, ∀ h : k < 32, ¬isJmp p[k]) →
    ∃ s, run n (construct p) = .next s ∧ s.pc.toNat = n % 32 ∧
      (1 ≤ n → s.ifReg = imemAt (n - 1) (construct p)) ∧ (2 ≤ n → s.idReg = imemAt (n - 2) (construct p)) ∧
      (3 ≤ n → s.exReg = imemAt (n - 3) (construct p)) ∧ (4 ≤ n → s.wbReg = imemAt (n - 4) (construct p))

/-- Latency (40_pipeline.md R123, derived there), for every instruction: what IF holds is in ID, EX and WB after
one, two and three clocks; after two, accumulator and flags are those of its ALU step; after three, registers and
latches are those its write-back leaves, so an IMM's value is in its register. -/
def Obligations.FetchedInstructionWritesBackThreeClocksLater : Prop :=
  ∀ s₁, ∃ s₂ s₃ s₄, step s₁ = .next s₂ ∧ step s₂ = .next s₃ ∧ step s₃ = .next s₄ ∧
    s₂.idReg = s₁.ifReg ∧ s₃.exReg = s₁.ifReg ∧ s₄.wbReg = s₁.ifReg ∧
    (∃ d, drained s₂ = .next d ∧
      s₃.acc = (aluStep s₁.ifReg.op s₁.ifReg.mode s₁.ifReg.opA s₁.ifReg.opB d).acc ∧
      s₃.flags = (aluStep s₁.ifReg.op s₁.ifReg.mode s₁.ifReg.opA s₁.ifReg.opB d).flags) ∧
    s₄.x = (writeback s₁.ifReg s₃).x ∧ s₄.out = (writeback s₁.ifReg s₃).out ∧
    (∀ a b, s₁.ifReg = .imm a b → 1 ≤ a.val.toNat → a.val.toNat ≤ 7 → readReg a.val s₄ = b.val)

/-! ## Reset and the host -/

/-- The values after construction (10_state.md R36; the input lines by decision D14; the stage field is the
model's own, log entry 1). -/
def Obligations.ConstructionGivesTheResetValues : Prop :=
  ∀ p : Program, (construct p).pc = 0#5 ∧ (construct p).acc = 0#8 ∧
    (construct p).flags = ⟨false, false, false, false⟩ ∧
    (∀ r ∈ [(construct p).ifReg, (construct p).idReg, (construct p).exReg, (construct p).wbReg],
      r = .noop ⟨.immediate, 0#8⟩ ⟨.immediate, 0#8⟩) ∧
    (∀ n, ∀ h : n < 8, (construct p).x[n] = 0#8 ∧ (construct p).out[n] = 0#8 ∧ (construct p).inp[n] = 0#8) ∧
    (construct p).imem = p

/-- An edge with `rst` asserted gives the reset values and keeps the store (10_state.md R37,
70_reset_and_hazards.md R200, decision D3), after any run. -/
def Obligations.ResetEdgeRestoresConstruction : Prop :=
  ∀ (p : Program) (n : Nat), ∃ s, run n (construct p) = .next s ∧ clockEdge true s = .next (construct p)

/-- No clock observes an input line (10_state.md R32, decision D14). -/
def Obligations.InputLinesAreUnobserved : Prop :=
  ∀ n s v s', run n s = .next s' →
    run n { s with inp := v } = .next { s' with inp := v } ∧ State.snapshot { s' with inp := v } = s'.snapshot

/-- Operand kinds take no part in execution (30_encoding.md R80, R83, decision D6): replacing them all changes
nothing else in any run. -/
def Obligations.OperandKindsAreIgnored : Prop :=
  (∀ ka kb i s, exec (Instr.withKinds ka kb i) s = exec i s) ∧
  (∀ n s s', run n s = .next s' → run n (eraseKinds s) = .next (eraseKinds s'))

/-- The instruction of an opcode-table word is the one the next clock executes (the model's own interface, log
entry 3). -/
def Obligations.FetchWordIsExecutedNext : Prop :=
  ∀ (s : State) w i, decodeTableWord 32 w = some i → ∃ t₁ t₂, exec s.exReg (enterWriteBack (s.withFetchWord 32 w)) = .next t₁ ∧
    exec i (enterExecute t₁) = .next t₂ ∧ step (s.withFetchWord 32 w) = .next (endClock t₂)

/-! ## Encoding and loading (the word is the spec's own packing, decisions D4, D5, D13) -/

/-- Decoding an encoded instruction gives it back, every operand at every value (30_encoding.md R74). -/
def Obligations.DecodeOfEncode : Prop := ∀ i, decode (encode i) = .ok i

/-- Every accepted word is the encoding of what it decodes to (30_encoding.md R74: one-to-one). -/
def Obligations.EncodeOfDecode : Prop := ∀ w i, decode w = .ok i → encode i = w

/-- Which words spell an instruction (30_encoding.md R82). -/
def Obligations.DecodeAcceptsExactlyTheLegalWords : Prop :=
  ∀ w : Word, (∃ i, decode w = .ok i) ↔
    w.toNat / 2 ^ 28 < 10 ∧ w.toNat / 2 ^ 26 % 4 = 0 ∧ w.toNat / 2 ^ 16 % 16 = 0 ∧
      (w.toNat / 2 ^ 24 % 4 = 0 ∨ w.toNat / 2 ^ 28 = 3 ∨ w.toNat / 2 ^ 28 = 4)

/-- Words of 95_test_vectors.md V6 and of the opcode map's families. -/
def Obligations.SampleWordsDecode : Prop :=
  decode 0x00A00000#32 = .ok (.noop ⟨.immediate, 0#8⟩ ⟨.immediate, 0#8⟩) ∧
  decode 0x102001C8#32 = .ok (.imm ⟨.register, 1#8⟩ ⟨.immediate, 200#8⟩) ∧
  decode 0x33800001#32 = .ok (.xadd ⟨.immediate, 0#8⟩ ⟨.register, 1#8⟩) ∧
  decode 0x70C00001#32 = .ok (.out ⟨.port, 0#8⟩ ⟨.register, 1#8⟩) ∧
  decode 0x80E00300#32 = .ok (.jmp ⟨.port, 3#8⟩ ⟨.immediate, 0#8⟩) ∧
  decode 0xA0000000#32 = .error .reservedOperation ∧
  decode 0x31010102#32 = .error .reservedBits ∧
  decode 0x21000102#32 = .error .modeOnNonAlu

/-- The load path takes exactly the stores of 32 words that each spell an instruction (30_encoding.md R79, R81,
R82, decision D13), and an accepted load is the construction of the core with them: the model's choice, log entry
11, after 10_state.md R37 (decisions D2, D3). -/
def Obligations.LoadAcceptsExactlyWellFormedStores : Prop :=
  (∀ ws, (∃ s, loadWords ws = .next s) ↔ ws.length = 32 ∧ ∀ w ∈ ws, ∃ i, decode w = .ok i) ∧
  (∀ ws s, loadWords ws = .next s → s = construct s.imem ∧ s.imem.toList.map encode = ws) ∧
  (∀ rs, (∃ s, loadRecords rs = .next s) ↔ storeWellFormed rs = true)

/-! ## The assembler -/

/-- The syntax of every instruction (30_encoding.md R102): its line assembles to it, without a message, for
every operand value. -/
def Obligations.SyntaxOfEveryInstructionAssembles : Prop :=
  ∀ i : Instr, i.kindsAsExpected = true → parseLine (syntaxLine i) = ⟨some i, []⟩

/-- Binary literals (30_encoding.md R90): the sum of digit times 2 to its position from the right, underscores
removed; any other character fails. -/
def Obligations.BinaryLiteralsAreSumsOfPowers : Prop :=
  ∀ cs : List Char,
    ((∀ c ∈ cs, c = '0' ∨ c = '1' ∨ c = '_') → binaryValue? ('B' :: cs) =
      some (∑ k ∈ Finset.range (cs.filter (· != '_')).length,
        (if (cs.filter (· != '_')).reverse[k]? = some '1' then 1 else 0) * 2 ^ k)) ∧
    ((∃ c ∈ cs, c ≠ '0' ∧ c ≠ '1' ∧ c ≠ '_') → binaryValue? ('B' :: cs) = none)

/-- Collect-all (30_encoding.md R99): every line's messages are reported at its number; an error, and nothing
else, means no Program; a Program has exactly 32 instructions. -/
def Obligations.AssemblerCollectsAllDiagnostics : Prop :=
  ∀ policy lines,
    ((assemble policy lines).program = none ↔ ∃ d ∈ (assemble policy lines).diagnostics, d.severity = .error) ∧
    (∀ n line, lines[n]? = some line → ∀ m ∈ (parseLine line).messages,
      ⟨n, m.1, m.2⟩ ∈ (assemble policy lines).diagnostics) ∧
    (∀ line, (parseLine line).instr = none ↔ ∃ m ∈ (parseLine line).messages, m.1 = .error) ∧
    (∀ p, (assemble policy lines).program = some p → p.toList.length = 32)

/-- Program size (30_encoding.md R79, R98, decision D17): lines without errors give the first 32 instructions,
padded with canonical no-ops; more than 32 is refused under the policy `error` and kept under `warn_truncate`.
That the diagnostic has the size warning's message under `error` too is the model's choice, log entry 13. -/
def Obligations.AssemblerPadsAndLimitsToThirtyTwo : Prop :=
  ∀ policy lines (is : List Instr), lines.map (fun l => (parseLine l).instr) = is.map some →
    (is.length ≤ 32 ∨ policy = .warnTruncate → ∃ p, (assemble policy lines).program = some p ∧
      ∀ k, ∀ h : k < 32, p[k] = is.getD k canonicalNoop) ∧
    (32 < is.length → ∃ d ∈ (assemble policy lines).diagnostics, d.message = .programExceeds32) ∧
    (32 < is.length → policy = .error → (assemble policy lines).program = none)

/-- The mode letter (30_encoding.md R93): a verbatim name has mode None; with one character before it, the mode
is that letter's on ADD and ADDC, an error otherwise.  That a character which is no letter gives the error R93 states
for a letter is the model's choice, log entry 12. -/
def Obligations.ModeLetterResolution : Prop :=
  (∀ op, resolveMnemonic (operationName op) = .ok (op, .none)) ∧
  (∀ c op, resolveMnemonic (c :: operationName op) =
    if op.isAlu then
      if c = 'U' then .ok (op, .u) else if c = 'S' then .ok (op, .s) else if c = 'X' then .ok (op, .x)
      else .error .malformedInstruction
    else .error .noAluArguments)

/-- Operands of a line (30_encoding.md R94 to R97, decision D16), for every operation and mode prefix: tokens fill
the required slots in order, a missing one is an error, another kind is a warning and is kept, tokens left over are
ignored.  That a line with an error reports that one error and no more is the model's choice, log entry 8 (and
95_test_vectors.md V7.9). -/
def Obligations.OperandTokensFillTheSlotsInOrder : Prop :=
  (∀ op mode ka kb ta tb oa ob rest, op.isAlu = true ∨ mode = .none →
    operandRequirements op mode = (some ka, some kb) → parseOperand ta = some oa → parseOperand tb = some ob →
    (∃ i, RawInstr.toInstr? ⟨op, mode, oa, ob⟩ = some i ∧
      parseTokens ((modeLetters mode ++ operationName op) :: ta :: tb :: rest) =
        ⟨some i, slotWarnings ka .a oa ++ slotWarnings kb .b ob⟩) ∧
    (parseTokens [modeLetters mode ++ operationName op, ta]).instr = none ∧
    (.error, .missingOperand) ∈ (parseTokens [modeLetters mode ++ operationName op, ta]).messages ∧
    parseTokens [modeLetters mode ++ operationName op] = ⟨none, [(.error, .missingOperand)]⟩) ∧
  (∀ ta oa rest, parseOperand ta = some oa →
    parseTokens (operationName .jmp :: ta :: rest) = ⟨some (.jmp oa .unused), slotWarnings .immediate .a oa⟩ ∧
    parseTokens (operationName .bie :: ta :: rest) = ⟨some (.bie oa .unused), slotWarnings .immediate .a oa⟩) ∧
  (∀ tb ob rest, parseOperand tb = some ob →
    parseTokens (('X' :: operationName .add) :: tb :: rest) =
      ⟨some (.xadd .unused ob), slotWarnings .register .b ob⟩ ∧
    parseTokens (('X' :: operationName .addc) :: tb :: rest) =
      ⟨some (.xaddc .unused ob), slotWarnings .register .b ob⟩) ∧
  (∀ m ∈ [operationName .jmp, operationName .bie, 'X' :: operationName .add, 'X' :: operationName .addc],
    parseTokens [m] = ⟨none, [(.error, .missingOperand)]⟩) ∧
  (∀ rest, parseTokens (operationName .noop :: rest) = ⟨some canonicalNoop, []⟩)

/-- A blank or comment-only line is a canonical no-op (30_encoding.md R87, R88).  Which characters are white space
is the model's choice, log entry 6. -/
def Obligations.BlankLinesAreNoops : Prop :=
  ∀ blank comment, (∀ c ∈ blank, c.isWhitespace = true) →
    parseLine blank = ⟨some canonicalNoop, []⟩ ∧ parseLine (blank ++ ';' :: comment) = ⟨some canonicalNoop, []⟩
end

