-- ==== Sys2Proof/Laws/Assembler.lean ====
section
/-! SUPPORT. The functions of the assembler, each by one lemma. -/

namespace Sys2Proof.Machine

/-- Every operation is found under its own name (30_encoding.md R92). -/
@[simp] theorem operationNamed_operationName (op : Operation) : operationNamed (operationName op) = some op := by
  cases op <;> rfl

/-- No operation's name is another's with a character before it, so a verbatim match and a mode letter never
compete (30_encoding.md R92). -/
theorem operationNamed_cons (c : Char) (op : Operation) : operationNamed (c :: operationName op) = none := by
  cases op <;> simp [operationNamed, operationTable, operationName]

/-- Characters that are not white space gather in the token being read. -/
theorem tokensFrom_append (cur t rest : List Char) (h : ∀ c ∈ t, c.isWhitespace = false) :
    tokensFrom cur (t ++ rest) = tokensFrom (cur ++ t) rest := by
  induction t generalizing cur with
  | nil => simp
  | cons c cs ih =>
    have hc := h c (by simp)
    simp only [List.cons_append, tokensFrom, hc]
    rw [if_neg (by simp), ih _ fun d hd => h d (by simp [hd])]
    simp

/-- A line without lower-case letters and comments is its own normal form. -/
theorem normaliseLine_of_plain (l : List Char) (h : ∀ c ∈ l, c ≠ ';' ∧ c.toUpper = c) : normaliseLine l = l := by
  induction l with
  | nil => rfl
  | cons c cs ih =>
    obtain ⟨hs, hu⟩ := h c (by simp)
    have hb : (c != ';') = true := by simpa using hs
    simp only [normaliseLine, List.map_cons, hu, List.takeWhile_cons, hb, if_true]
    exact congrArg (c :: ·) (ih fun d hd => h d (by simp [hd]))

/-- The diagnostics are the messages of the lines, each at its own line. -/
theorem mem_diagnosticsFrom (rs : List LineResult) (k : Nat) (d : Diagnostic) :
    d ∈ diagnosticsFrom k rs ↔
      ∃ n r, rs[n]? = some r ∧ d.line = k + n ∧ (d.severity, d.message) ∈ r.messages := by
  induction rs generalizing k with
  | nil => simp [diagnosticsFrom]
  | cons r rs ih =>
    simp only [diagnosticsFrom, List.mem_append, List.mem_map, ih]
    constructor
    · rintro (⟨m, hm, rfl⟩ | ⟨n, r', h₁, h₂, h₃⟩)
      · exact ⟨0, r, rfl, rfl, hm⟩
      · exact ⟨n + 1, r', by simpa using h₁, by omega, h₃⟩
    · rintro ⟨n, r', h₁, h₂, h₃⟩
      cases n with
      | zero =>
        obtain rfl : r = r' := by simpa using h₁
        exact .inl ⟨_, h₃, by cases d; simp at h₂; simp [h₂]⟩
      | succ n => exact .inr ⟨n, r', by simpa using h₁, by omega, h₃⟩

/-- The Program holds the instructions, then canonical no-ops (30_encoding.md R79). -/
theorem padProgram_getElem (is : List Instr) (k : Nat) (h : k < 32) :
    (padProgram is)[k] = is.getD k canonicalNoop := by
  simp only [padProgram, Vector.getElem_mk, List.getElem_toArray, List.getElem_take, List.getElem_append,
    List.getElem_replicate]
  split
  · rename_i hk; simp [hk]
  · rename_i hk; rw [List.getD_eq_getElem?_getD, List.getElem?_eq_none (by omega)]; rfl

end Sys2Proof.Machine
end

