-- ==== Sys2Proof/Laws/Decode.lean ====
section
/-! SUPPORT. The fields of an encoded record, the tag tables read both ways, and which records are instructions. -/

namespace Sys2Proof

/-! ## Tags (30_encoding.md R71 to R73) -/

@[simp] theorem operationOfCode_code (op : Operation) : operationOfCode op.code = some op := by cases op <;> rfl
@[simp] theorem modeOfCode_code (m : AddrMode) : modeOfCode m.code = m := by cases m <;> rfl
@[simp] theorem kindOfCode_code (k : OperandKind) : kindOfCode k.code = k := by cases k <;> rfl
@[simp] theorem code_modeOfCode (c : BitVec 2) : (modeOfCode c).code = c := by revert c; decide
@[simp] theorem code_kindOfCode (c : BitVec 2) : (kindOfCode c).code = c := by revert c; decide

theorem code_of_operationOfCode {c : BitVec 4} {op : Operation} (h : operationOfCode c = some op) : op.code = c := by
  revert op c; decide

/-! ## Records (30_encoding.md R81) -/

theorem toRaw_of_toInstr? {r : RawInstr} {i : Instr} (h : RawInstr.toInstr? r = some i) : i.toRaw = r := by
  obtain ⟨op, mode, a, b⟩ := r
  cases op <;> cases mode <;> simp [RawInstr.toInstr?] at h <;> subst h <;> rfl

/-- A record is an instruction exactly when it is well-formed. -/
theorem toInstr?_isSome_iff (r : RawInstr) : (RawInstr.toInstr? r).isSome = r.wellFormed := by
  obtain ⟨op, mode, a, b⟩ := r
  cases op <;> cases mode <;> rfl

/-! ## The fields of an encoded record (30_encoding.md R74) -/

theorem encode_toNat (r : RawInstr) :
    r.encode.toNat = r.op.code.toNat * 2 ^ 28 + r.mode.code.toNat * 2 ^ 24 + r.a.kind.code.toNat * 2 ^ 22 +
      r.b.kind.code.toNat * 2 ^ 20 + r.a.val.toNat * 2 ^ 8 + r.b.val.toNat := by
  have := r.mode.code.isLt
  have := r.a.kind.code.isLt
  have := r.b.kind.code.isLt
  have := r.a.val.isLt
  have := r.b.val.isLt
  simp only [RawInstr.encode, BitVec.toNat_append, BitVec.toNat_ofNat]
  iterate 7 rw [← Nat.shiftLeft_add_eq_or_of_lt (by omega)]
  simp only [Nat.shiftLeft_eq]
  omega

theorem encode_op (r : RawInstr) : r.encode.extractLsb' 28 4 = r.op.code := by
  apply BitVec.eq_of_toNat_eq
  have := r.op.code.isLt
  have := r.mode.code.isLt
  have := r.a.kind.code.isLt
  have := r.b.kind.code.isLt
  have := r.a.val.isLt
  have := r.b.val.isLt
  rw [BitVec.extractLsb'_toNat, encode_toNat, Nat.shiftRight_eq_div_pow]
  omega

theorem encode_reservedHi (r : RawInstr) : r.encode.extractLsb' 26 2 = 0#2 := by
  apply BitVec.eq_of_toNat_eq
  have := r.op.code.isLt
  have := r.mode.code.isLt
  have := r.a.kind.code.isLt
  have := r.b.kind.code.isLt
  have := r.a.val.isLt
  have := r.b.val.isLt
  rw [BitVec.extractLsb'_toNat, encode_toNat, Nat.shiftRight_eq_div_pow]
  simp only [BitVec.toNat_ofNat]
  omega

theorem encode_mode (r : RawInstr) : r.encode.extractLsb' 24 2 = r.mode.code := by
  apply BitVec.eq_of_toNat_eq
  have := r.op.code.isLt
  have := r.mode.code.isLt
  have := r.a.kind.code.isLt
  have := r.b.kind.code.isLt
  have := r.a.val.isLt
  have := r.b.val.isLt
  rw [BitVec.extractLsb'_toNat, encode_toNat, Nat.shiftRight_eq_div_pow]
  omega

theorem encode_kindA (r : RawInstr) : r.encode.extractLsb' 22 2 = r.a.kind.code := by
  apply BitVec.eq_of_toNat_eq
  have := r.op.code.isLt
  have := r.mode.code.isLt
  have := r.a.kind.code.isLt
  have := r.b.kind.code.isLt
  have := r.a.val.isLt
  have := r.b.val.isLt
  rw [BitVec.extractLsb'_toNat, encode_toNat, Nat.shiftRight_eq_div_pow]
  omega

theorem encode_kindB (r : RawInstr) : r.encode.extractLsb' 20 2 = r.b.kind.code := by
  apply BitVec.eq_of_toNat_eq
  have := r.op.code.isLt
  have := r.mode.code.isLt
  have := r.a.kind.code.isLt
  have := r.b.kind.code.isLt
  have := r.a.val.isLt
  have := r.b.val.isLt
  rw [BitVec.extractLsb'_toNat, encode_toNat, Nat.shiftRight_eq_div_pow]
  omega

theorem encode_reservedLo (r : RawInstr) : r.encode.extractLsb' 16 4 = 0#4 := by
  apply BitVec.eq_of_toNat_eq
  have := r.op.code.isLt
  have := r.mode.code.isLt
  have := r.a.kind.code.isLt
  have := r.b.kind.code.isLt
  have := r.a.val.isLt
  have := r.b.val.isLt
  rw [BitVec.extractLsb'_toNat, encode_toNat, Nat.shiftRight_eq_div_pow]
  simp only [BitVec.toNat_ofNat]
  omega

theorem encode_valA (r : RawInstr) : r.encode.extractLsb' 8 8 = r.a.val := by
  apply BitVec.eq_of_toNat_eq
  have := r.op.code.isLt
  have := r.mode.code.isLt
  have := r.a.kind.code.isLt
  have := r.b.kind.code.isLt
  have := r.a.val.isLt
  have := r.b.val.isLt
  rw [BitVec.extractLsb'_toNat, encode_toNat, Nat.shiftRight_eq_div_pow]
  omega

theorem encode_valB (r : RawInstr) : r.encode.extractLsb' 0 8 = r.b.val := by
  apply BitVec.eq_of_toNat_eq
  have := r.op.code.isLt
  have := r.mode.code.isLt
  have := r.a.kind.code.isLt
  have := r.b.kind.code.isLt
  have := r.a.val.isLt
  have := r.b.val.isLt
  rw [BitVec.extractLsb'_toNat, encode_toNat, Nat.shiftRight_eq_div_pow]
  omega

end Sys2Proof
end

