-- ==== Sys2Proof/Laws/State.lean ====
section
/-! SUPPORT. One lemma per field per update of State, so that no later proof unfolds a record update. -/

namespace Sys2Proof.Machine

variable (s : State) (v : Byte) (i p : Byte) (op : Operation) (mode : AddrMode) (a b : Operand)

/-! ## enterWriteBack -/

@[simp] theorem enterWriteBack_pc : (enterWriteBack s).pc = s.pc := rfl
@[simp] theorem enterWriteBack_ifReg : (enterWriteBack s).ifReg = s.ifReg := rfl
@[simp] theorem enterWriteBack_idReg : (enterWriteBack s).idReg = s.idReg := rfl
@[simp] theorem enterWriteBack_exReg : (enterWriteBack s).exReg = s.exReg := rfl
@[simp] theorem enterWriteBack_wbReg : (enterWriteBack s).wbReg = s.exReg := rfl
@[simp] theorem enterWriteBack_x : (enterWriteBack s).x = s.x := rfl
@[simp] theorem enterWriteBack_acc : (enterWriteBack s).acc = s.acc := rfl
@[simp] theorem enterWriteBack_flags : (enterWriteBack s).flags = s.flags := rfl
@[simp] theorem enterWriteBack_out : (enterWriteBack s).out = s.out := rfl
@[simp] theorem enterWriteBack_inp : (enterWriteBack s).inp = s.inp := rfl
@[simp] theorem enterWriteBack_imem : (enterWriteBack s).imem = s.imem := rfl
@[simp] theorem enterWriteBack_stage : (enterWriteBack s).stage = .writeBack := rfl

/-! ## enterExecute -/

@[simp] theorem enterExecute_pc : (enterExecute s).pc = s.pc := rfl
@[simp] theorem enterExecute_ifReg : (enterExecute s).ifReg = s.ifReg := rfl
@[simp] theorem enterExecute_idReg : (enterExecute s).idReg = s.idReg := rfl
@[simp] theorem enterExecute_exReg : (enterExecute s).exReg = s.idReg := rfl
@[simp] theorem enterExecute_wbReg : (enterExecute s).wbReg = s.wbReg := rfl
@[simp] theorem enterExecute_x : (enterExecute s).x = s.x := rfl
@[simp] theorem enterExecute_acc : (enterExecute s).acc = s.acc := rfl
@[simp] theorem enterExecute_flags : (enterExecute s).flags = s.flags := rfl
@[simp] theorem enterExecute_out : (enterExecute s).out = s.out := rfl
@[simp] theorem enterExecute_inp : (enterExecute s).inp = s.inp := rfl
@[simp] theorem enterExecute_imem : (enterExecute s).imem = s.imem := rfl
@[simp] theorem enterExecute_stage : (enterExecute s).stage = .execute := rfl

/-! ## decodeStage -/

@[simp] theorem decodeStage_pc : (decodeStage s).pc = s.pc := rfl
@[simp] theorem decodeStage_ifReg : (decodeStage s).ifReg = s.ifReg := rfl
@[simp] theorem decodeStage_idReg : (decodeStage s).idReg = s.ifReg := rfl
@[simp] theorem decodeStage_exReg : (decodeStage s).exReg = s.exReg := rfl
@[simp] theorem decodeStage_wbReg : (decodeStage s).wbReg = s.wbReg := rfl
@[simp] theorem decodeStage_x : (decodeStage s).x = s.x := rfl
@[simp] theorem decodeStage_acc : (decodeStage s).acc = s.acc := rfl
@[simp] theorem decodeStage_flags : (decodeStage s).flags = s.flags := rfl
@[simp] theorem decodeStage_out : (decodeStage s).out = s.out := rfl
@[simp] theorem decodeStage_inp : (decodeStage s).inp = s.inp := rfl
@[simp] theorem decodeStage_imem : (decodeStage s).imem = s.imem := rfl
@[simp] theorem decodeStage_stage : (decodeStage s).stage = s.stage := rfl

/-! ## fetchStage -/

@[simp] theorem fetchStage_pc : (fetchStage s).pc = s.pc := rfl
@[simp] theorem fetchStage_ifReg : (fetchStage s).ifReg = ifetch s.pc s := rfl
@[simp] theorem fetchStage_idReg : (fetchStage s).idReg = s.idReg := rfl
@[simp] theorem fetchStage_exReg : (fetchStage s).exReg = s.exReg := rfl
@[simp] theorem fetchStage_wbReg : (fetchStage s).wbReg = s.wbReg := rfl
@[simp] theorem fetchStage_x : (fetchStage s).x = s.x := rfl
@[simp] theorem fetchStage_acc : (fetchStage s).acc = s.acc := rfl
@[simp] theorem fetchStage_flags : (fetchStage s).flags = s.flags := rfl
@[simp] theorem fetchStage_out : (fetchStage s).out = s.out := rfl
@[simp] theorem fetchStage_inp : (fetchStage s).inp = s.inp := rfl
@[simp] theorem fetchStage_imem : (fetchStage s).imem = s.imem := rfl
@[simp] theorem fetchStage_stage : (fetchStage s).stage = s.stage := rfl

/-! ## advancePc -/

@[simp] theorem advancePc_pc : (advancePc s).pc = s.pc + 1#5 := rfl
@[simp] theorem advancePc_ifReg : (advancePc s).ifReg = s.ifReg := rfl
@[simp] theorem advancePc_idReg : (advancePc s).idReg = s.idReg := rfl
@[simp] theorem advancePc_exReg : (advancePc s).exReg = s.exReg := rfl
@[simp] theorem advancePc_wbReg : (advancePc s).wbReg = s.wbReg := rfl
@[simp] theorem advancePc_x : (advancePc s).x = s.x := rfl
@[simp] theorem advancePc_acc : (advancePc s).acc = s.acc := rfl
@[simp] theorem advancePc_flags : (advancePc s).flags = s.flags := rfl
@[simp] theorem advancePc_out : (advancePc s).out = s.out := rfl
@[simp] theorem advancePc_inp : (advancePc s).inp = s.inp := rfl
@[simp] theorem advancePc_imem : (advancePc s).imem = s.imem := rfl
@[simp] theorem advancePc_stage : (advancePc s).stage = s.stage := rfl

/-! ## endClock -/

@[simp] theorem endClock_pc : (endClock s).pc = s.pc + 1#5 := rfl
@[simp] theorem endClock_ifReg : (endClock s).ifReg = ifetch s.pc s := rfl
@[simp] theorem endClock_idReg : (endClock s).idReg = s.ifReg := rfl
@[simp] theorem endClock_exReg : (endClock s).exReg = s.exReg := rfl
@[simp] theorem endClock_wbReg : (endClock s).wbReg = s.wbReg := rfl
@[simp] theorem endClock_x : (endClock s).x = s.x := rfl
@[simp] theorem endClock_acc : (endClock s).acc = s.acc := rfl
@[simp] theorem endClock_flags : (endClock s).flags = s.flags := rfl
@[simp] theorem endClock_out : (endClock s).out = s.out := rfl
@[simp] theorem endClock_inp : (endClock s).inp = s.inp := rfl
@[simp] theorem endClock_imem : (endClock s).imem = s.imem := rfl
@[simp] theorem endClock_stage : (endClock s).stage = .writeBack := rfl

/-! ## branchTo -/

@[simp] theorem branchTo_pc : (branchTo v s).pc = v.setWidth 5 := rfl
@[simp] theorem branchTo_ifReg : (branchTo v s).ifReg = s.ifReg := rfl
@[simp] theorem branchTo_idReg : (branchTo v s).idReg = s.idReg := rfl
@[simp] theorem branchTo_exReg : (branchTo v s).exReg = s.exReg := rfl
@[simp] theorem branchTo_wbReg : (branchTo v s).wbReg = s.wbReg := rfl
@[simp] theorem branchTo_x : (branchTo v s).x = s.x := rfl
@[simp] theorem branchTo_acc : (branchTo v s).acc = s.acc := rfl
@[simp] theorem branchTo_flags : (branchTo v s).flags = s.flags := rfl
@[simp] theorem branchTo_out : (branchTo v s).out = s.out := rfl
@[simp] theorem branchTo_inp : (branchTo v s).inp = s.inp := rfl
@[simp] theorem branchTo_imem : (branchTo v s).imem = s.imem := rfl
@[simp] theorem branchTo_stage : (branchTo v s).stage = s.stage := rfl

/-! ## aluStep -/

@[simp] theorem aluStep_pc : (aluStep op mode a b s).pc = s.pc := rfl
@[simp] theorem aluStep_ifReg : (aluStep op mode a b s).ifReg = s.ifReg := rfl
@[simp] theorem aluStep_idReg : (aluStep op mode a b s).idReg = s.idReg := rfl
@[simp] theorem aluStep_exReg : (aluStep op mode a b s).exReg = s.exReg := rfl
@[simp] theorem aluStep_wbReg : (aluStep op mode a b s).wbReg = s.wbReg := rfl
@[simp] theorem aluStep_x : (aluStep op mode a b s).x = s.x := rfl
@[simp] theorem aluStep_acc : (aluStep op mode a b s).acc = wrap (aluResult op (aluInputA mode a s) (aluInputB b s)) := rfl
@[simp] theorem aluStep_flags : (aluStep op mode a b s).flags = 
    aluFlags (aluInputA mode a s) (aluInputB b s) (aluResult op (aluInputA mode a s) (aluInputB b s)) := rfl
@[simp] theorem aluStep_out : (aluStep op mode a b s).out = s.out := rfl
@[simp] theorem aluStep_inp : (aluStep op mode a b s).inp = s.inp := rfl
@[simp] theorem aluStep_imem : (aluStep op mode a b s).imem = s.imem := rfl
@[simp] theorem aluStep_stage : (aluStep op mode a b s).stage = s.stage := rfl

/-! ## writeReg: everything but the register file -/

@[simp] theorem writeReg_pc : (writeReg i v s).pc = s.pc := by unfold writeReg; split <;> rfl
@[simp] theorem writeReg_ifReg : (writeReg i v s).ifReg = s.ifReg := by unfold writeReg; split <;> rfl
@[simp] theorem writeReg_idReg : (writeReg i v s).idReg = s.idReg := by unfold writeReg; split <;> rfl
@[simp] theorem writeReg_exReg : (writeReg i v s).exReg = s.exReg := by unfold writeReg; split <;> rfl
@[simp] theorem writeReg_wbReg : (writeReg i v s).wbReg = s.wbReg := by unfold writeReg; split <;> rfl
@[simp] theorem writeReg_acc : (writeReg i v s).acc = s.acc := by unfold writeReg; split <;> rfl
@[simp] theorem writeReg_flags : (writeReg i v s).flags = s.flags := by unfold writeReg; split <;> rfl
@[simp] theorem writeReg_out : (writeReg i v s).out = s.out := by unfold writeReg; split <;> rfl
@[simp] theorem writeReg_inp : (writeReg i v s).inp = s.inp := by unfold writeReg; split <;> rfl
@[simp] theorem writeReg_imem : (writeReg i v s).imem = s.imem := by unfold writeReg; split <;> rfl
@[simp] theorem writeReg_stage : (writeReg i v s).stage = s.stage := by unfold writeReg; split <;> rfl

/-! ## portWrite: everything but the output latches -/

@[simp] theorem portWrite_pc : (portWrite p v s).pc = s.pc := by unfold portWrite; split <;> rfl
@[simp] theorem portWrite_ifReg : (portWrite p v s).ifReg = s.ifReg := by unfold portWrite; split <;> rfl
@[simp] theorem portWrite_idReg : (portWrite p v s).idReg = s.idReg := by unfold portWrite; split <;> rfl
@[simp] theorem portWrite_exReg : (portWrite p v s).exReg = s.exReg := by unfold portWrite; split <;> rfl
@[simp] theorem portWrite_wbReg : (portWrite p v s).wbReg = s.wbReg := by unfold portWrite; split <;> rfl
@[simp] theorem portWrite_x : (portWrite p v s).x = s.x := by unfold portWrite; split <;> rfl
@[simp] theorem portWrite_acc : (portWrite p v s).acc = s.acc := by unfold portWrite; split <;> rfl
@[simp] theorem portWrite_flags : (portWrite p v s).flags = s.flags := by unfold portWrite; split <;> rfl
@[simp] theorem portWrite_inp : (portWrite p v s).inp = s.inp := by unfold portWrite; split <;> rfl
@[simp] theorem portWrite_imem : (portWrite p v s).imem = s.imem := by unfold portWrite; split <;> rfl
@[simp] theorem portWrite_stage : (portWrite p v s).stage = s.stage := by unfold portWrite; split <;> rfl

/-! ## What readReg and ifetch depend on -/

/-- A register read depends on the register file alone. -/
theorem readReg_congr {s t : State} (h : s.x = t.x) : readReg i s = readReg i t := by
  unfold readReg; simp only [h]

/-- A fetch depends on the instruction store alone. -/
theorem ifetch_congr {s t : State} (pc : PcAddr) (h : s.imem = t.imem) : ifetch pc s = ifetch pc t := by
  unfold ifetch; simp only [h]

end Sys2Proof.Machine
end

