-- ==== Sys2Proof/Laws/Ops.lean ====
section
/-! SUPPORT. What each operation over registers, ports and the ALU can do, said once. -/

namespace Sys2Proof.Machine

variable {s : State} {i j v : Byte}

/-! ## Registers -/

/-- 10_state.md R23. -/
theorem readReg_of_mem (h : 1 ≤ i.toNat ∧ i.toNat < 8) : readReg i s = s.x[i.toNat]'h.2 := by
  simp only [readReg, dif_pos h]

/-- 10_state.md R22, R24. -/
theorem readReg_of_not_mem (h : ¬(1 ≤ i.toNat ∧ i.toNat < 8)) : readReg i s = 0#8 := by
  simp only [readReg, dif_neg h]

theorem writeReg_of_mem (h : 1 ≤ i.toNat ∧ i.toNat < 8) :
    writeReg i v s = { s with x := s.x.set i.toNat v h.2 } := by
  simp only [writeReg, dif_pos h]

/-- 10_state.md R22, R24: the write is discarded. -/
theorem writeReg_of_not_mem (h : ¬(1 ≤ i.toNat ∧ i.toNat < 8)) : writeReg i v s = s := by
  simp only [writeReg, dif_neg h]

/-- Everything a register write does to register reads. -/
theorem readReg_writeReg :
    readReg j (writeReg i v s) = if j = i ∧ 1 ≤ i.toNat ∧ i.toNat < 8 then v else readReg j s := by
  by_cases hi : 1 ≤ i.toNat ∧ i.toNat < 8
  · rw [writeReg_of_mem hi]
    by_cases hji : j = i
    · subst hji
      simp only [readReg, dif_pos hi, Vector.getElem_set_self, true_and, if_pos hi]
    · have hne : i.toNat ≠ j.toNat := fun h => hji (BitVec.eq_of_toNat_eq h.symm)
      simp only [readReg, Vector.getElem_set_ne _ _ hne, hji, false_and, if_false]
  · rw [writeReg_of_not_mem hi, if_neg fun h => hi h.2]

/-- A register write changes nothing but the register file, whatever else is set beside it. -/
theorem writeReg_data_frame : { writeReg i v s with x := s.x, out := s.out } = s := by
  unfold writeReg; split <;> rfl

/-- Cell 0 of the register file is never written (10_state.md R22). -/
@[simp] theorem writeReg_cellZero : (writeReg i v s).x[0] = s.x[0] := by
  unfold writeReg
  split
  · rename_i h
    simp only [Vector.getElem_set]
    exact if_neg (by omega)
  · rfl

/-- A register write changes nothing but the register file. -/
theorem writeReg_frame : { writeReg i v s with x := s.x } = s := by
  unfold writeReg; split <;> rfl

/-- A register write changes no cell but its own. -/
theorem writeReg_cell_ne {n : Nat} (hn : n < 8) (h : n ≠ i.toNat) : (writeReg i v s).x[n] = s.x[n] := by
  unfold writeReg
  split
  · simp only [Vector.getElem_set]
    exact if_neg (Ne.symm h)
  · rfl

/-! ## Output latches -/

/-- Everything a port write does to the latches (10_state.md R31). -/
theorem portWrite_out {n : Nat} (hn : n < 8) :
    (portWrite i v s).out[n] = if n = i.toNat then v else s.out[n] := by
  unfold portWrite
  split
  · rename_i h
    by_cases hni : n = i.toNat
    · subst hni; simp
    · simp only [if_neg hni]; exact Vector.getElem_set_ne _ _ (Ne.symm hni)
  · rename_i h
    rw [if_neg (by omega)]

/-- A port write changes nothing but the latches. -/
theorem portWrite_frame : { portWrite i v s with out := s.out } = s := by
  unfold portWrite; split <;> rfl

theorem portWrite_data_frame : { portWrite i v s with x := s.x, out := s.out } = s := by
  unfold portWrite; split <;> rfl

/-! ## The ALU -/

/-- 40_pipeline.md R121 for the sums that are not 511. -/
theorem wrap_toNat {r : Nat} (h : r ≤ 510) : (wrap r).toNat = if r ≤ 255 then r else r - 255 := by
  unfold wrap
  split
  · simp only [BitVec.toNat_ofNat]; omega
  · simp only [BitVec.toNat_ofNat]; omega

/-- 40_pipeline.md R121 for the sum 511: the free value. -/
theorem wrap_511 : wrap 511 = Config.addc511Acc := rfl

/-- 40_pipeline.md R119: a non-ALU operation has result 0. -/
theorem aluResult_of_not_alu {op : Operation} (h : op.isAlu = false) (p q : Byte) : aluResult op p q = 0 := by
  cases op <;> simp_all [aluResult, Operation.isAlu]

/-- 40_pipeline.md R119: the result needs nine bits. -/
theorem aluResult_le (op : Operation) (p q : Byte) : aluResult op p q ≤ 511 := by
  have := p.isLt
  have := q.isLt
  cases op <;> simp only [aluResult] <;> omega

/-- 40_pipeline.md R120: of any two bytes exactly one compare holds. -/
theorem aluFlags_trichotomy (p q : Byte) (r : Nat) :
    (p = q ∧ aluFlags p q r = ⟨true, false, false, decide (255 < r)⟩) ∨
      (q.toNat < p.toNat ∧ aluFlags p q r = ⟨false, true, false, decide (255 < r)⟩) ∨
      (p.toNat < q.toNat ∧ aluFlags p q r = ⟨false, false, true, decide (255 < r)⟩) := by
  rcases Nat.lt_trichotomy p.toNat q.toNat with h | h | h
  · have hne : p ≠ q := fun e => by simp [e] at h
    exact .inr (.inr ⟨h, by simp [aluFlags, hne, h, Nat.not_lt.mpr (Nat.le_of_lt h)]⟩)
  · have he : p = q := BitVec.eq_of_toNat_eq h
    exact .inl ⟨he, by simp [aluFlags, he]⟩
  · have hne : p ≠ q := fun e => by simp [e] at h
    exact .inr (.inl ⟨h, by simp [aluFlags, hne, h, Nat.not_lt.mpr (Nat.le_of_lt h)]⟩)

/-- The ALU step changes the flags and the accumulator alone. -/
theorem aluStep_frame (op : Operation) (mode : AddrMode) (a b : Operand) :
    { aluStep op mode a b s with flags := s.flags, acc := s.acc } = s := rfl

end Sys2Proof.Machine
end

