-- ==== Sys2Proof/Laws/Exec.lean ====
section
/-! SUPPORT. What exec and step can do, said once for all instructions: exec in each stage is a function of the instruction and the state, and a clock is their composition. -/

namespace Sys2Proof.Machine

variable {s : State} (i : Instr)

/-! ## The write-back stage leaves everything alone but one register or one latch -/

@[simp] theorem writeback_pc : (writeback i s).pc = s.pc := by cases i <;> simp [writeback]
@[simp] theorem writeback_ifReg : (writeback i s).ifReg = s.ifReg := by cases i <;> simp [writeback]
@[simp] theorem writeback_idReg : (writeback i s).idReg = s.idReg := by cases i <;> simp [writeback]
@[simp] theorem writeback_exReg : (writeback i s).exReg = s.exReg := by cases i <;> simp [writeback]
@[simp] theorem writeback_wbReg : (writeback i s).wbReg = s.wbReg := by cases i <;> simp [writeback]
@[simp] theorem writeback_acc : (writeback i s).acc = s.acc := by cases i <;> simp [writeback]
@[simp] theorem writeback_flags : (writeback i s).flags = s.flags := by cases i <;> simp [writeback]
@[simp] theorem writeback_inp : (writeback i s).inp = s.inp := by cases i <;> simp [writeback]
@[simp] theorem writeback_imem : (writeback i s).imem = s.imem := by cases i <;> simp [writeback]
@[simp] theorem writeback_stage : (writeback i s).stage = s.stage := by cases i <;> simp [writeback]
@[simp] theorem writeback_cellZero : (writeback i s).x[0] = s.x[0] := by cases i <;> simp [writeback]

/-! ## The branch leaves everything alone but the program counter -/

@[simp] theorem branch_ifReg : (branch i s).ifReg = s.ifReg := by cases i <;> rfl
@[simp] theorem branch_idReg : (branch i s).idReg = s.idReg := by cases i <;> rfl
@[simp] theorem branch_exReg : (branch i s).exReg = s.exReg := by cases i <;> rfl
@[simp] theorem branch_wbReg : (branch i s).wbReg = s.wbReg := by cases i <;> rfl
@[simp] theorem branch_x : (branch i s).x = s.x := by cases i <;> rfl
@[simp] theorem branch_acc : (branch i s).acc = s.acc := by cases i <;> rfl
@[simp] theorem branch_flags : (branch i s).flags = s.flags := by cases i <;> rfl
@[simp] theorem branch_out : (branch i s).out = s.out := by cases i <;> rfl
@[simp] theorem branch_inp : (branch i s).inp = s.inp := by cases i <;> rfl
@[simp] theorem branch_imem : (branch i s).imem = s.imem := by cases i <;> rfl
@[simp] theorem branch_stage : (branch i s).stage = s.stage := by cases i <;> rfl

/-- Only a JMP moves the program counter (43_control.md R172). -/
theorem branch_pc_of_ne_jmp (h : i.op ≠ .jmp) : (branch i s).pc = s.pc := by
  cases i <;> first
    | rfl
    | exact absurd rfl h

/-! ## exec and step -/

/-- The execute stage of every instruction (40_pipeline.md R113): the branch, then the ALU step. -/
theorem exec_of_execute (h : s.stage = .execute) :
    exec i s = .next (aluStep i.op i.mode i.opA i.opB (branch i s)) := by
  cases i <;> simp only [exec, execNoop, execImm, execMov, execAdd, execSadd, execUadd, execXadd, execAddc,
    execSaddc, execUaddc, execXaddc, execShr, execNot, execOut, execJmp, execBie, byStage, h] <;> rfl

/-- The write-back stage of every instruction (40_pipeline.md R112). -/
theorem exec_of_writeBack (h : s.stage = .writeBack) : exec i s = .next (writeback i s) := by
  cases i <;> simp only [exec, execNoop, execImm, execMov, execAdd, execSadd, execUadd, execXadd, execAddc,
    execSaddc, execUaddc, execXaddc, execShr, execNot, execOut, execJmp, execBie, byStage, h] <;> rfl

/-- exec answers a next state, always (40_pipeline.md R110, 60_exceptions.md R180). -/
theorem exec_next (s : State) : ∃ t, exec i s = .next t := by
  cases h : s.stage with
  | execute => exact ⟨_, exec_of_execute i h⟩
  | writeBack => exact ⟨_, exec_of_writeBack i h⟩

/-- The state after the write-back stage of a clock. -/
def afterWriteBack (s : State) : State := writeback s.exReg (enterWriteBack s)

/-- The state after the execute stage of a clock. -/
def afterExecute (s : State) : State :=
  aluStep s.idReg.op s.idReg.mode s.idReg.opA s.idReg.opB (branch s.idReg (enterExecute (afterWriteBack s)))

/-- Everything a clock does. -/
theorem step_eq (s : State) : step s = .next (endClock (afterExecute s)) := by
  have e₁ : exec s.exReg (enterWriteBack s) = .next (afterWriteBack s) := exec_of_writeBack _ rfl
  have hid : (afterWriteBack s).idReg = s.idReg := by simp [afterWriteBack]
  have e₂ : exec s.idReg (enterExecute (afterWriteBack s)) = .next (afterExecute s) := exec_of_execute _ rfl
  simp only [step, e₁, hid, e₂]

end Sys2Proof.Machine
end

