-- ==== Sys2Proof/Laws/External.lean ====
section
/-! SUPPORT. The load path, said once. -/

namespace Sys2Proof.Machine

variable {α : Type} (read : α → Option Instr)

/-- A store is read exactly when every entry is an instruction. -/
theorem readStore_eq_ok_iff (l : List α) (n : Nat) (is : List Instr) :
    readStore read n l = .ok is ↔ l.map read = is.map some := by
  induction l generalizing n is with
  | nil => cases is <;> simp [readStore]
  | cons a l ih =>
    simp only [readStore]
    cases ha : read a with
    | none => cases is <;> simp [ha]
    | some i =>
      cases hr : readStore read (n + 1) l with
      | error e =>
        cases is with
        | nil => simp
        | cons j js =>
          simp only [reduceCtorEq, List.map_cons, ha, List.cons.injEq, false_iff, not_and]
          intro _ h
          rw [← ih (n + 1), hr] at h
          cases h
      | ok is' =>
        cases is with
        | nil => simp
        | cons j js =>
          have h : is' = js ↔ l.map read = js.map some := by simpa [hr] using ih (n + 1) js
          rw [List.map_cons, List.map_cons, ha, List.cons.injEq, ← h]
          simp

/-- A loaded store constructs the core with exactly the instructions it holds. -/
theorem loadWith_eq_next_iff (l : List α) (s : State) :
    loadWith read l = .next s ↔ s = construct s.imem ∧ l.map read = s.imem.toList.map some := by
  unfold loadWith
  cases h : readStore read 0 l with
  | error e =>
    simp only [reduceCtorEq, false_iff, not_and]
    intro _ h₂
    rw [← readStore_eq_ok_iff read l 0, h] at h₂
    cases h₂
  | ok is =>
    have hm := (readStore_eq_ok_iff read l 0 is).1 h
    have hinj {js : List Instr} (h₂ : l.map read = js.map some) : is = js :=
      List.map_injective_iff.2 (Option.some_injective _) (hm ▸ h₂)
    by_cases hl : is.length = 32
    · simp only [dif_pos hl]
      constructor
      · rintro ⟨⟩
        exact ⟨rfl, hm⟩
      · rintro ⟨h₁, h₂⟩
        rw [h₁]
        congr 2
        exact Vector.toList_inj.1 (by simpa using hinj h₂)
    · simp only [dif_neg hl]
      constructor
      · rintro ⟨⟩
      · rintro ⟨_, h₂⟩
        exact absurd (by rw [hinj h₂]; simp) hl

end Sys2Proof.Machine
end

