-- ==== Sys2Proof/Laws/PerInstr.lean ====
section
/-! SUPPORT. The family RecordRoundTrip, one lemma per constructor: an instruction is well-formed and its record spells it back (30_encoding.md R70, R81). -/

namespace Sys2Proof.Laws.RecordRoundTrip

def Statement (i : Instr) : Prop :=
  i.wellFormed = true ∧ RawInstr.toInstr? i.toRaw = some i

theorem noop (a b : Operand) : Statement (.noop a b) := ⟨rfl, rfl⟩
theorem imm (a b : Operand) : Statement (.imm a b) := ⟨rfl, rfl⟩
theorem mov (a b : Operand) : Statement (.mov a b) := ⟨rfl, rfl⟩
theorem add (a b : Operand) : Statement (.add a b) := ⟨rfl, rfl⟩
theorem sadd (a b : Operand) : Statement (.sadd a b) := ⟨rfl, rfl⟩
theorem uadd (a b : Operand) : Statement (.uadd a b) := ⟨rfl, rfl⟩
theorem xadd (a b : Operand) : Statement (.xadd a b) := ⟨rfl, rfl⟩
theorem addc (a b : Operand) : Statement (.addc a b) := ⟨rfl, rfl⟩
theorem saddc (a b : Operand) : Statement (.saddc a b) := ⟨rfl, rfl⟩
theorem uaddc (a b : Operand) : Statement (.uaddc a b) := ⟨rfl, rfl⟩
theorem xaddc (a b : Operand) : Statement (.xaddc a b) := ⟨rfl, rfl⟩
theorem shr (a b : Operand) : Statement (.shr a b) := ⟨rfl, rfl⟩
theorem not (a b : Operand) : Statement (.not a b) := ⟨rfl, rfl⟩
theorem out (a b : Operand) : Statement (.out a b) := ⟨rfl, rfl⟩
theorem jmp (a b : Operand) : Statement (.jmp a b) := ⟨rfl, rfl⟩
theorem bie (a b : Operand) : Statement (.bie a b) := ⟨rfl, rfl⟩

end Sys2Proof.Laws.RecordRoundTrip
end

