-- ==== Sys2Proof/Laws/Step.lean ====
section
/-! SUPPORT. What a clock, a number of clocks and an instruction run whole leave in each field. -/

namespace Sys2Proof.Machine

variable {s t : State} (i : Instr)

/-! ## After the write-back stage of a clock -/

@[simp] theorem afterWriteBack_pc : (afterWriteBack s).pc = s.pc := by simp [afterWriteBack]
@[simp] theorem afterWriteBack_ifReg : (afterWriteBack s).ifReg = s.ifReg := by simp [afterWriteBack]
@[simp] theorem afterWriteBack_idReg : (afterWriteBack s).idReg = s.idReg := by simp [afterWriteBack]
@[simp] theorem afterWriteBack_exReg : (afterWriteBack s).exReg = s.exReg := by simp [afterWriteBack]
@[simp] theorem afterWriteBack_wbReg : (afterWriteBack s).wbReg = s.exReg := by simp [afterWriteBack]
@[simp] theorem afterWriteBack_acc : (afterWriteBack s).acc = s.acc := by simp [afterWriteBack]
@[simp] theorem afterWriteBack_inp : (afterWriteBack s).inp = s.inp := by simp [afterWriteBack]
@[simp] theorem afterWriteBack_imem : (afterWriteBack s).imem = s.imem := by simp [afterWriteBack]

/-! ## After the execute stage of a clock -/

@[simp] theorem afterExecute_ifReg : (afterExecute s).ifReg = s.ifReg := by simp [afterExecute]
@[simp] theorem afterExecute_exReg : (afterExecute s).exReg = s.idReg := by simp [afterExecute]
@[simp] theorem afterExecute_wbReg : (afterExecute s).wbReg = s.exReg := by simp [afterExecute]
@[simp] theorem afterExecute_x : (afterExecute s).x = (afterWriteBack s).x := by simp [afterExecute]
@[simp] theorem afterExecute_out : (afterExecute s).out = (afterWriteBack s).out := by simp [afterExecute]
@[simp] theorem afterExecute_inp : (afterExecute s).inp = s.inp := by simp [afterExecute]
@[simp] theorem afterExecute_imem : (afterExecute s).imem = s.imem := by simp [afterExecute]

/-- 43_control.md R172: the program counter moves in the execute stage only for a JMP. -/
theorem afterExecute_pc_of_ne_jmp (h : s.idReg.op ≠ .jmp) : (afterExecute s).pc = s.pc := by
  simp [afterExecute, branch_pc_of_ne_jmp _ h]

/-- 43_control.md R170: a JMP leaves its target in the program counter. -/
theorem afterExecute_pc_of_jmp {a b : Operand} (h : s.idReg = .jmp a b) :
    (afterExecute s).pc.toNat = a.val.toNat % 32 := by
  simp [afterExecute, h, branch]

/-- The only state a clock can answer. -/
theorem eq_of_step (h : step s = .next t) : t = endClock (afterExecute s) :=
  (Host.Outcome.next.inj ((step_eq s).symm.trans h)).symm

/-! ## A number of clocks -/

theorem run_zero (s : State) : Host.Core.run core 0 s = .next s := rfl

theorem run_succ (n : Nat) (s : State) :
    Host.Core.run core (n + 1) s = Host.Core.run core n (endClock (afterExecute s)) := by
  have h : core.step s = .next (endClock (afterExecute s)) := step_eq s
  simp only [Host.Core.run, h]

theorem run_add {n : Nat} (m : Nat) {s t : State} (h : Host.Core.run core n s = .next t) :
    Host.Core.run core (n + m) s = Host.Core.run core m t := by
  induction n generalizing s with
  | zero => rw [Nat.zero_add, Host.Outcome.next.inj ((run_zero s).symm.trans h)]
  | succ n ih =>
    rw [run_succ] at h
    rw [Nat.succ_add, run_succ]
    exact ih h

/-! ## Whole instructions -/

/-- Everything an instruction run whole does. -/
theorem runWhole_eq (s : State) :
    runWhole i s = .next (writeback i
      { aluStep i.op i.mode i.opA i.opB (branch i { s with stage := .execute }) with stage := .writeBack }) := by
  have h : exec i { s with stage := .execute } = _ := exec_of_execute i rfl
  simp only [runWhole, h]
  exact exec_of_writeBack i rfl

theorem drained_eq (s : State) : drained s = .next (afterWriteBack s) := exec_of_writeBack _ rfl

theorem executedIn_succ (n : Nat) (s : State) :
    executedIn (n + 1) s = s.idReg :: executedIn n (endClock (afterExecute s)) := by
  simp only [executedIn, step_eq]

theorem sameData_refl (s : State) : sameData s s := ⟨rfl, rfl, rfl, rfl⟩

theorem sameData_trans {u : State} (h : sameData s t) (k : sameData t u) : sameData s u :=
  ⟨h.1.trans k.1, h.2.1.trans k.2.1, h.2.2.1.trans k.2.2.1, h.2.2.2.trans k.2.2.2⟩

/-- Write-back reads and writes data only. -/
theorem writeback_sameData (h : sameData s t) : sameData (writeback i s) (writeback i t) := by
  obtain ⟨hx, ho, ha, hf⟩ := h
  refine ⟨?_, ?_, by simpa, by simpa⟩
  · cases i <;> simp only [writeback, writeReg, portWrite, readReg, hx, ha] <;> split <;> simp [hx]
  · cases i <;> simp only [writeback, writeReg, portWrite, readReg, hx, ho, ha] <;> split <;> simp [ho]

/-- The execute stage reads and writes data and the program counter only. -/
theorem execute_sameData (h : sameData s t) :
    sameData (aluStep i.op i.mode i.opA i.opB (branch i s)) (aluStep i.op i.mode i.opA i.opB (branch i t)) := by
  obtain ⟨hx, ho, ha, hf⟩ := h
  have hA : aluInputA i.mode i.opA (branch i s) = aluInputA i.mode i.opA (branch i t) := by
    cases i <;> simp [aluInputA, branch, readReg, hx, ha]
  have hB : aluInputB i.opB (branch i s) = aluInputB i.opB (branch i t) := readReg_congr _ (by simp [hx])
  exact ⟨by simpa, by simpa, by simp only [aluStep_acc, hA, hB], by simp only [aluStep_flags, hA, hB]⟩

end Sys2Proof.Machine
end

