-- ==== Sys2Proof/Tests/Slice0.lean ====
section
/-! SUPPORT. Tests: expected results from 95_test_vectors.md and the examples of the rules, and a witness for the hypotheses of every statement that has some. -/

namespace Sys2Proof.Tests

open Sys2Proof.Machine Sys2Proof.Claims

/-! ## Helpers -/

/-- Register(i). -/
abbrev R (i : Byte) : Operand := ⟨.register, i⟩
/-- Immediate(n). -/
abbrev N (n : Byte) : Operand := ⟨.immediate, n⟩
/-- Port(p). -/
abbrev P (p : Byte) : Operand := ⟨.port, p⟩

/-- The reset state with x1, x2 and acc set. -/
def small (x1 x2 acc : Byte) : State :=
  { State.reset with x := (State.reset.x.set 1 x1).set 2 x2, acc := acc }

/-- A next state with the property. -/
def nextHas (o : Host.Outcome State Fault Refusal) (p : State → Bool) : Bool :=
  match o with
  | .next t => p t
  | .fault _ => false
  | .refused _ => false

/-- The accumulator and the flags (in the order eq, gt, lt, ov) after the execute stage of `i`. -/
def executes (i : Instr) (s : State) (acc : Byte) (eq gt lt ov : Bool) : Bool :=
  nextHas (exec i (inExecute s)) fun t => t.acc == acc && t.flags == ⟨eq, gt, lt, ov⟩

/-- The value of register `r` after the write-back stage of `i`. -/
def leaves (i : Instr) (s : State) (r v : Byte) : Bool :=
  nextHas (exec i (inWriteBack s)) fun t => readReg r t == v

/-! ## Records and well-formedness (30_encoding.md R79, R81, R82) -/

theorem test_wellFormed_refuses_mode_on_mov : RawInstr.wellFormed ⟨.mov, .s, R 1, R 2⟩ = false := by decide
theorem test_wellFormed_takes_mode_on_addc : RawInstr.wellFormed ⟨.addc, .x, N 0, R 2⟩ = true := by decide
theorem test_store_refuses_wrong_length : storeWellFormed (List.replicate 31 canonicalNoop.toRaw) = false := by decide
theorem test_store_refuses_ill_formed_entry :
    storeWellFormed (List.replicate 31 canonicalNoop.toRaw ++ [⟨.jmp, .u, N 0, N 0⟩]) = false := by decide
theorem test_kinds_unexpected : Instr.kindsAsExpected (.mov (R 1) (N 5)) = false := by decide

/-! ## Decoding: one word per constructor, from 95_test_vectors.md and the typical words of 30_encoding.md R86 -/

theorem test_decode_noop : decode 0x00A00000#32 = .ok (.noop (N 0) (N 0)) := by decide
theorem test_decode_imm : decode 0x102001C8#32 = .ok (.imm (R 1) (N 200)) := by decide
theorem test_decode_mov : decode 0x20000102#32 = .ok (.mov (R 1) (R 2)) := by decide
theorem test_decode_add : decode 0x30000102#32 = .ok (.add (R 1) (R 2)) := by decide
theorem test_decode_sadd : decode 0x31000302#32 = .ok (.sadd (R 3) (R 2)) := by decide
theorem test_decode_uadd : decode 0x32000302#32 = .ok (.uadd (R 3) (R 2)) := by decide
theorem test_decode_xadd : decode 0x33800001#32 = .ok (.xadd (N 0) (R 1)) := by decide
theorem test_decode_addc : decode 0x40000504#32 = .ok (.addc (R 5) (R 4)) := by decide
theorem test_decode_saddc : decode 0x41000502#32 = .ok (.saddc (R 5) (R 2)) := by decide
theorem test_decode_uaddc : decode 0x42000600#32 = .ok (.uaddc (R 6) (R 0)) := by decide
theorem test_decode_xaddc : decode 0x43800002#32 = .ok (.xaddc (N 0) (R 2)) := by decide
theorem test_decode_shr : decode 0x50000102#32 = .ok (.shr (R 1) (R 2)) := by decide
theorem test_decode_not : decode 0x60000201#32 = .ok (.not (R 2) (R 1)) := by decide
theorem test_decode_out : decode 0x70C00701#32 = .ok (.out (P 7) (R 1)) := by decide
theorem test_decode_jmp : decode 0x80A00A00#32 = .ok (.jmp (N 10) (N 0)) := by decide
theorem test_decode_bie : decode 0x90A01F00#32 = .ok (.bie (N 31) (N 0)) := by decide
/-- IMM with a MemoryAddress and a Port operand (V7.20). -/
theorem test_decode_kinds : decode 0x10700304#32 = .ok (.imm ⟨.memoryAddress, 3#8⟩ (P 4)) := by decide
theorem test_decode_refuses_operation : decode 0xA0000000#32 = .error .reservedOperation := by decide
theorem test_decode_refuses_low_reserved : decode 0x31010102#32 = .error .reservedBits := by decide
theorem test_decode_refuses_high_reserved : decode 0x34000102#32 = .error .reservedBits := by decide
theorem test_decode_refuses_mode : decode 0x21000102#32 = .error .modeOnNonAlu := by decide
theorem test_encode_imm : encode (.imm (R 3) (N 5)) = 0x10200305#32 := by decide
theorem test_decodeTableWord_row : decodeTableWord 32 0x70000000 = some (.out (R 0) (R 0)) := by decide
theorem test_decodeTableWord_too_wide : decodeTableWord 64 0x170000000 = none := by decide

/-! ## The two stages of each instruction (95_test_vectors.md V2, V3, V4; the examples of 41, 42 and 43) -/

theorem test_noop_execute : executes (.noop (N 0) (N 0)) (small 9 0 7) 0 true false false false = true := by decide
/-- V2.2: the immediate 255 and the register 7 both read 0. -/
theorem test_imm_execute : executes (.imm (R 7) (N 255)) (small 0 0 0) 0 true false false false = true := by decide
theorem test_imm_writeBack : leaves (.imm (R 7) (N 255)) (small 0 0 0) 7 255 = true := by decide
/-- V2.5. -/
theorem test_mov_execute : executes (.mov (R 2) (R 1)) (small 9 0 0) 0 false false true false = true := by decide
theorem test_mov_writeBack : leaves (.mov (R 2) (R 1)) (small 9 0 0) 2 9 = true := by decide
/-- V2.11. -/
theorem test_out_writeBack :
    nextHas (exec (.out (P 7) (R 1)) (inWriteBack (small 9 0 0))) (fun t => t.out[7] == 9#8) = true := by decide
/-- V2.12: port 8 is dropped. -/
theorem test_out_dropped :
    nextHas (exec (.out (P 8) (R 1)) (inWriteBack (small 9 0 0))) (fun t => t.out == State.reset.out) = true := by decide
/-- V3.1: 300 gives 45, not 44. -/
theorem test_add_execute : executes (.add (R 1) (R 2)) (small 200 100 0) 45 false true false true = true := by decide
theorem test_add_writeBack : leaves (.add (R 1) (R 2)) (small 200 100 45) 1 45 = true := by decide
/-- V3.7. -/
theorem test_sadd_execute : executes (.sadd (R 3) (R 2)) (small 5 7 0) 7 false false true false = true := by decide
theorem test_sadd_writeBack : leaves (.sadd (R 3) (R 2)) (small 5 7 7) 3 7 = true := by decide
/-- V3.9: the accumulator 150, not x3, is input A. -/
theorem test_uadd_execute : executes (.uadd (R 3) (R 2)) (small 100 50 150) 200 false true false false = true := by decide
theorem test_uadd_writeBack : leaves (.uadd (R 3) (R 2)) (small 100 50 200) 3 200 = true := by decide
/-- V3.11. -/
theorem test_xadd_execute : executes (.xadd (N 0) (R 2)) (small 45 100 45) 145 false false true false = true := by decide
/-- Mode X writes no register, whatever slot A holds. -/
theorem test_xadd_writeBack : leaves (.xadd (R 1) (R 2)) (small 45 100 145) 1 45 = true := by decide
/-- V3.14. -/
theorem test_addc_execute : executes (.addc (R 1) (R 2)) (small 255 0 0) 1 false true false true = true := by decide
/-- V3.15: the sum 511 leaves the open parameter. -/
theorem test_addc_511 :
    (aluStep .addc .none (R 1) (R 2) (small 255 255 0)).acc = Config.addc511Acc ∧
      (aluStep .addc .none (R 1) (R 2) (small 255 255 0)).flags = ⟨true, false, false, true⟩ := ⟨rfl, rfl⟩
/-- V3.18. -/
theorem test_saddc_execute : executes (.saddc (R 5) (R 2)) (small 3 4 0) 5 false false true false = true := by decide
theorem test_saddc_writeBack : leaves (.saddc (R 5) (R 2)) (small 3 4 5) 5 5 = true := by decide
/-- V3.19. -/
theorem test_uaddc_execute : executes (.uaddc (R 3) (R 2)) (small 254 1 254) 1 false true false true = true := by decide
theorem test_uaddc_writeBack : leaves (.uaddc (R 3) (R 2)) (small 254 1 1) 3 1 = true := by decide
/-- V3.20. -/
theorem test_xaddc_execute : executes (.xaddc (N 0) (R 2)) (small 254 1 254) 1 false true false true = true := by decide
theorem test_xaddc_writeBack : leaves (.xaddc (R 1) (R 2)) (small 254 1 1) 1 254 = true := by decide
/-- V3.21: no shift. -/
theorem test_shr_execute : executes (.shr (R 1) (R 2)) (small 7 3 9) 0 false true false false = true := by decide
theorem test_shr_writeBack : leaves (.shr (R 1) (R 2)) (small 7 3 0) 1 7 = true := by decide
/-- V3.22: no complement. -/
theorem test_not_execute : executes (.not (R 2) (R 1)) (small 7 3 9) 0 false false true false = true := by decide
theorem test_not_writeBack : leaves (.not (R 2) (R 1)) (small 7 3 0) 2 3 = true := by decide
/-- V4.4: the target 35 is 3. -/
theorem test_jmp_execute :
    nextHas (exec (.jmp (N 35) (N 0)) (inExecute State.reset)) (fun t => t.pc == 3#5) = true := by decide
/-- V4.6: the target is compared as a register index. -/
theorem test_jmp_flags : executes (.jmp (N 1) (N 0)) (small 9 0 0) 0 false true false false = true := by decide
/-- V4.9: no jump with eq true. -/
theorem test_bie_execute :
    nextHas (exec (.bie (N 31) (N 0)) (inExecute { State.reset with flags := ⟨true, false, false, false⟩ }))
      (fun t => t.pc == 0#5) = true := by decide

/-! ## One clock -/

/-- V5.2 and S9: the ADD in the execute stage reads what write-back writes in the same clock. -/
theorem test_step_write_before_read :
    nextHas (step { State.reset with exReg := .imm (R 1) (N 5), idReg := .add (R 2) (R 1) })
      (fun t => t.acc == 5#8 && t.flags == ⟨false, false, true, false⟩ && readReg 1 t == 5#8) = true := by decide
/-- S5: JMP 10 in ID; the clock leaves pc 11 and moves the delay slot on. -/
theorem test_step_jmp :
    nextHas (step { State.reset with pc := 5#5, idReg := .jmp (N 10) (N 0), ifReg := .imm (R 1) (N 1) })
      (fun t => t.pc == 11#5 && t.idReg == .imm (R 1) (N 1) && t.exReg == .jmp (N 10) (N 0)) = true := by decide
/-- V4.5: target 31, then the advance wraps. -/
theorem test_step_pc_wraps :
    nextHas (step { State.reset with idReg := .jmp (N 255) (N 0) }) (fun t => t.pc == 0#5) = true := by decide
/-- V1.2. -/
theorem test_step_from_reset :
    nextHas (step State.reset) (fun t => t.pc == 1#5 && t.acc == 0#8 && t.flags == ⟨true, false, false, false⟩) = true := by
  decide
/-- V1.7. -/
theorem test_rst : (small 1 2 3).rst = State.reset := by decide
theorem test_snapshot_register_zero :
    (State.snapshot { State.reset with x := Vector.replicate 8 9#8 }).x = (Vector.replicate 8 9#8).set 0 0#8 := by decide
theorem test_withFetchWord :
    nextHas (step (State.reset.withFetchWord 32 0x80A00A00)) (fun t => t.exReg == .jmp (N 10) (N 0) && t.pc == 11#5) = true := by
  decide
theorem test_load_refuses_entry :
    loadWords (List.replicate 31 0x00A00000#32 ++ [0x21000102#32]) = .refused (.notAnInstruction 31) := by rfl
theorem test_load_refuses_length : loadWords [0x00A00000#32] = .refused (.notThirtyTwoEntries 1) := by rfl

/-! ## The assembler (95_test_vectors.md V7) -/

/-- A line that yields an instruction with the word, and these messages. -/
def assembles (line : String) (w : Word) (ms : List (Severity × Message)) : Bool :=
  let r := parseLine line.toList
  r.instr.map encode == some w && r.messages == ms

theorem test_asm_leftover : assembles "XADD R1 R2" 0x33800001 [] = true := by decide
theorem test_asm_verbatim_first : assembles "SHR R1 R2" 0x50000102 [] = true := by decide
theorem test_asm_underscores : assembles "IMM R1 B1111_1111" 0x102001FF [] = true := by decide
theorem test_asm_bare_b : assembles "IMM R1 B" 0x10200100 [] = true := by decide
theorem test_asm_binary_register : assembles "UADDC RB11 R1" 0x42000301 [] = true := by decide
theorem test_asm_case_and_comment : assembles "imm r1 5 ; c" 0x10200105 [] = true := by decide
theorem test_asm_two_warnings : assembles "IMM #3 %4" 0x10700304
    [(.warning, .kindMismatch .register .a .memoryAddress), (.warning, .kindMismatch .immediate .b .port)] = true := by
  decide
theorem test_asm_warns_in_mode_x : assembles "XADDC 5" 0x43A00005
    [(.warning, .kindMismatch .register .b .immediate)] = true := by decide
theorem test_asm_noAluArguments : parseLine "XMOV R1 R2".toList = ⟨none, [(.error, .noAluArguments)]⟩ := by decide
theorem test_asm_malformed : parseLine "AADD R1 R2".toList = ⟨none, [(.error, .malformedInstruction)]⟩ := by decide
theorem test_asm_unknown : parseLine "FOO".toList = ⟨none, [(.error, .notAValidInstruction)]⟩ := by decide
theorem test_asm_missing : parseLine "ADDC".toList = ⟨none, [(.error, .missingOperand)]⟩ := by decide
theorem test_asm_bad_operand :
    parseLine "ADD RZZ R1".toList = ⟨none, [(.error, .notAValidOperand ['R', 'Z', 'Z'])]⟩ := by decide
theorem test_asm_range : (parseLine "IMM R1 256".toList).instr = none := by decide
theorem test_asm_empty_sigil : (parseLine "IMM R %1".toList).instr = none := by decide
/-- V7.25: every line is checked. -/
theorem test_asm_collects : assembleText .error "IMM R1 1\nFOO\nIMM R2\nMOV R1 5" = ⟨none,
    [⟨1, .error, .notAValidInstruction⟩, ⟨2, .error, .missingOperand⟩,
      ⟨3, .warning, .kindMismatch .register .b .immediate⟩]⟩ := by decide
/-- V7.26. -/
theorem test_asm_comment_line :
    (assembleText .error "; comment\nIMM R1 5").program.map (fun p => (p[0], p[1], p[2])) =
      some (canonicalNoop, .imm (R 1) (N 5), canonicalNoop) := by decide
/-- S1: 33 lines under each policy. -/
theorem test_asm_oversize_error : (assemble .error (List.replicate 33 [])).program = none := by decide
theorem test_asm_oversize_truncate :
    (assemble .warnTruncate (List.replicate 33 [])).program = some (Vector.replicate 32 canonicalNoop) := by decide
theorem test_message_text :
    (Message.kindMismatch .register .b .immediate).text = "operation takes a Register for operand B, not a Immediate" := by
  decide

/-! ## Witnesses: the hypotheses of the statements are met, at the ends of their ranges -/

/-- RegistersOneToSevenAreStorage: the ends of the range, and a clock that changes a register. -/
theorem witness_registers : 1 ≤ (1#8).toNat ∧ (7#8).toNat ≤ 7 ∧
    ∃ s', step { State.reset with exReg := .imm (R 7) (N 5) } = .next s' ∧ readReg 7 s' ≠ readReg 7 State.reset :=
  ⟨by decide, by decide, _, rfl, by decide⟩

/-- RegisterZeroAndBeyondSevenReadZero: 0, 8 and 255. -/
theorem witness_register_zero_and_beyond : (0#8).toNat = 0 ∧ 8 ≤ (8#8).toNat ∧ 8 ≤ (255#8).toNat := by decide

/-- OnlyWriteBackWritesRegisters: an execute stage, a write-back that changes the file, and another cell. -/
theorem witness_register_writer : (∃ t, exec (.imm (R 1) (N 5)) (inExecute State.reset) = .next t) ∧
    (∃ t, exec (.imm (R 1) (N 5)) (inWriteBack State.reset) = .next t ∧ t.x ≠ State.reset.x) ∧
    0 ≠ (R 1).val.toNat ∧ 7 ≠ (R 1).val.toNat :=
  ⟨⟨_, rfl⟩, ⟨_, rfl, by decide⟩, by decide, by decide⟩

/-- OutputLatchesChangeOnlyByOut: a clock that changes a latch, and the ports 8 and 255. -/
theorem witness_latch : (∃ s', step { small 9 0 0 with exReg := .out (P 7) (R 1) } = .next s' ∧ s'.out ≠ (small 9 0 0).out) ∧
    8 ≤ (8#8).toNat ∧ 8 ≤ (255#8).toNat :=
  ⟨⟨_, rfl, by decide⟩, by decide, by decide⟩

/-- PipelineRegistersShift, InstructionStoreNeverChanges: an instruction that answers, a run that answers. -/
theorem witness_next : (∃ t, exec (.noop (N 0) (N 0)) State.reset = .next t) ∧ (∃ s', run 0 State.reset = .next s') ∧
    ∃ s', run 1 State.reset = .next s' := ⟨⟨_, rfl⟩, ⟨_, rfl⟩, _, rfl⟩

/-- ExecuteStageBranchesThenRunsTheAlu: a clock, and an execute stage that moves pc. -/
theorem witness_branch : (∃ s', step State.reset = .next s') ∧
    ∃ t, exec (.jmp (N 10) (N 0)) (inExecute State.reset) = .next t ∧ t.pc ≠ State.reset.pc :=
  ⟨⟨_, rfl⟩, _, rfl, by decide⟩

/-- SumIsExactThenNarrowed: an ALU operation, and sums at 255, 256 and 510. -/
theorem witness_sum : (Instr.op (.add (R 1) (R 2))).isAlu = true ∧
    (readReg 1 (small 255 0 0)).toNat + (readReg 2 (small 255 0 0)).toNat = 255 ∧
    (readReg 1 (small 255 1 0)).toNat + (readReg 2 (small 255 1 0)).toNat = 256 ∧
    (readReg 1 (small 255 255 0)).toNat + (readReg 2 (small 255 255 0)).toNat = 510 := by decide

/-- The clauses of runsAlu in the statements of ADD to XADDC: sums at 255, 256, 510 and 511, of two registers
and of the accumulator and a register. -/
theorem witness_runsAlu : (readReg 1 (small 254 0 0)).toNat + (readReg 2 (small 254 0 0)).toNat + 1 = 255 ∧
    (readReg 1 (small 255 0 0)).toNat + (readReg 2 (small 255 0 0)).toNat + 1 = 256 ∧
    (readReg 1 (small 255 254 0)).toNat + (readReg 2 (small 255 254 0)).toNat + 1 = 510 ∧
    (readReg 1 (small 255 255 0)).toNat + (readReg 2 (small 255 255 0)).toNat + 1 = 511 ∧
    (small 0 0 255).acc.toNat + (readReg 2 (small 0 0 255)).toNat = 255 ∧
    (small 0 1 255).acc.toNat + (readReg 2 (small 0 1 255)).toNat = 256 ∧
    (small 0 255 255).acc.toNat + (readReg 2 (small 0 255 255)).toNat = 510 ∧
    (small 0 255 255).acc.toNat + (readReg 2 (small 0 255 255)).toNat + 1 = 511 := by decide

/-- writesRegister and writesLatch: the ends of the ranges, and the first index past them. -/
theorem witness_writes : leaves (.imm (R 1) (N 9)) State.reset 1 9 = true ∧ leaves (.imm (R 7) (N 9)) State.reset 7 9 = true ∧
    leaves (.imm (R 0) (N 9)) State.reset 0 0 = true ∧ leaves (.imm (R 8) (N 9)) State.reset 8 0 = true ∧
    nextHas (exec (.out (P 0) (R 1)) (inWriteBack (small 9 0 0))) (fun t => t.out[0] == 9#8) = true := by decide

/-- NonAluClocksClearTheAccumulator: an instruction that is no ALU operation and no JMP. -/
theorem witness_nonAlu : State.reset.idReg.op.isAlu = false ∧ State.reset.idReg.op ≠ .jmp := by decide

/-- AccumulatorFeedsTheNextInstruction: modes U and X. -/
theorem witness_linkage : (Instr.op (.uadd (R 3) (R 2))).isAlu = true ∧ Instr.mode (.uadd (R 3) (R 2)) = .u ∧
    (Instr.op (.xaddc (N 0) (R 2))).isAlu = true ∧ Instr.mode (.xaddc (N 0) (R 2)) = .x := by decide

/-- ExactlyOneCompareFlagAfterAClock, InvariantIsKept: a state with the invariant whose clock answers. -/
theorem witness_invariant : State.reset.Inv ∧ ∃ s', step State.reset = .next s' :=
  ⟨⟨by decide, fun _ => ⟨rfl, rfl⟩, rfl⟩, _, rfl⟩

/-- JmpHasOneDelaySlot, JmpInADelaySlot: a JMP in ID, before another instruction and before another JMP. -/
theorem witness_delay : (∃ s : State, s.idReg = .jmp (N 255) (N 0) ∧ ¬isJmp s.ifReg) ∧
    ∃ s : State, s.idReg = .jmp (N 8) (N 0) ∧ s.ifReg = .jmp (N 20) (N 0) ∧ ¬isJmp (imemAt (N 8).val.toNat s) :=
  ⟨⟨{ State.reset with idReg := .jmp (N 255) (N 0) }, rfl, nofun⟩,
    ⟨{ State.reset with idReg := .jmp (N 8) (N 0), ifReg := .jmp (N 20) (N 0) }, rfl, rfl, nofun⟩⟩

/-- StraightLineProgramOrder: a Program without a JMP. -/
theorem witness_straight_line : ∀ k, ∀ h : k < 32, ¬isJmp (Vector.replicate 32 canonicalNoop)[k] := by
  intro k h; rw [Vector.getElem_replicate]; exact nofun

/-- FetchedInstructionWritesBackThreeClocksLater: IMM to registers 1 and 7 in IF. -/
theorem witness_latency : (∃ s : State, s.ifReg = .imm (R 1) (N 5)) ∧ 1 ≤ (R 1).val.toNat ∧ (R 7).val.toNat ≤ 7 :=
  ⟨⟨{ State.reset with ifReg := .imm (R 1) (N 5) }, rfl⟩, by decide, by decide⟩

/-- FetchWordIsExecutedNext, EncodeOfDecode. -/
theorem witness_decode : decodeTableWord 32 0x80A00A00 = some (.jmp (N 10) (N 0)) ∧
    decode 0x80A00A00#32 = .ok (.jmp (N 10) (N 0)) := by decide

/-- LoadAcceptsExactlyWellFormedStores: a store of words and a store of records that load. -/
theorem witness_load : (∃ s, loadWords (List.replicate 32 0x00A00000#32) = .next s) ∧
    storeWellFormed (List.replicate 32 canonicalNoop.toRaw) = true := ⟨⟨_, rfl⟩, by decide⟩

/-- SyntaxOfEveryInstructionAssembles. -/
theorem witness_syntax : Instr.kindsAsExpected (.imm (R 255) (N 0)) = true ∧ Instr.kindsAsExpected (.xadd (N 0) (R 1)) = true ∧
    Instr.kindsAsExpected (.out (P 7) (R 1)) = true ∧ Instr.kindsAsExpected (.jmp (N 255) (N 0)) = true ∧
    Instr.kindsAsExpected canonicalNoop = true := by decide

/-- BinaryLiteralsAreSumsOfPowers: both clauses. -/
theorem witness_binary : (∀ c ∈ ['1', '_', '0'], c = '0' ∨ c = '1' ∨ c = '_') ∧
    ∃ c ∈ ['1', '0', '2'], c ≠ '0' ∧ c ≠ '1' ∧ c ≠ '_' :=
  ⟨by simp, '2', by simp, by decide⟩

/-- AssemblerCollectsAllDiagnostics: a line with a message, and a Program. -/
theorem witness_collect : [['F', 'O', 'O']][0]? = some ['F', 'O', 'O'] ∧
    (.error, .notAValidInstruction) ∈ (parseLine ['F', 'O', 'O']).messages ∧
    (assemble .error []).program = some (padProgram []) := by decide

/-- AssemblerPadsAndLimitsToThirtyTwo: 32 and 33 lines without errors. -/
theorem witness_pad : ((List.replicate 32 []).map fun l => (parseLine l).instr) = (List.replicate 32 canonicalNoop).map some ∧
    ((List.replicate 33 []).map fun l => (parseLine l).instr) = (List.replicate 33 canonicalNoop).map some ∧
    (List.replicate 32 canonicalNoop).length ≤ 32 ∧ 32 < (List.replicate 33 canonicalNoop).length := by decide

/-- OperandTokensFillTheSlotsInOrder: an operation and a prefixed one with two slots, and two operand tokens. -/
theorem witness_slots : operandRequirements .imm .none = (some .register, some .immediate) ∧
    operandRequirements .addc .u = (some .register, some .register) ∧ Operation.isAlu .addc = true ∧
    parseOperand ['R', '1'] = some (R 1) ∧ parseOperand ['5'] = some (N 5) := by decide

/-- BlankLinesAreNoops. -/
theorem witness_blank : ∀ c ∈ [' ', '\t'], c.isWhitespace = true := by simp [Char.isWhitespace]

end Sys2Proof.Tests
end

section
/-! SUPPORT. What the write-back stage does to registers and latches, and which fields of the state the stages of a clock neither read nor change. -/

namespace Sys2Proof.Machine

open Sys2Proof.Claims

variable {s t : State} (i : Instr) (j p v : Byte) (f : Flags) (o : Vector Byte 8)

/-! ## What a write-back can do -/

/-- Every write-back is a register write at operand A, the port write of an OUT, or nothing
(40_pipeline.md R112). -/
theorem writeback_cases (s : State) :
    (writesOperandA i ∧ i.op ≠ .out ∧ ∃ v, writeback i s = writeReg i.opA.val v s) ∨
      (i.op = .out ∧ writeback i s = portWrite i.opA.val (readReg i.opB.val s) s) ∨
      (¬writesOperandA i ∧ i.op ≠ .out ∧ writeback i s = s) := by
  cases i with
  | imm | mov | add | sadd | uadd | addc | saddc | uaddc =>
    exact .inl ⟨by simp [writesOperandA, Instr.op, Instr.mode, Instr.toRaw], by simp [Instr.op, Instr.toRaw], _, rfl⟩
  | out => exact .inr (.inl ⟨rfl, rfl⟩)
  | noop | xadd | xaddc | shr | not | jmp | bie =>
    exact .inr (.inr ⟨by simp [writesOperandA, Instr.op, Instr.mode, Instr.toRaw], by simp [Instr.op, Instr.toRaw], rfl⟩)

/-- A write-back changes what a register reads only for a writer whose operand A names it
(10_state.md R23, R25). -/
theorem writesOperandA_of_readReg_writeback_ne (h : readReg j (writeback i s) ≠ readReg j s) :
    writesOperandA i ∧ i.opA.val = j := by
  obtain ⟨hw, -, v, hv⟩ | ⟨-, ho⟩ | ⟨-, -, hn⟩ := writeback_cases i s
  · rw [hv, readReg_writeReg] at h
    by_cases hj : j = i.opA.val
    · exact ⟨hw, hj.symm⟩
    · exact absurd (if_neg fun hc => hj hc.1) h
  · exact absurd (readReg_congr j (by rw [ho, portWrite_x])) h
  · exact absurd (by rw [hn]) h

/-- 10_state.md R31: a port write beyond the eight latches is dropped. -/
theorem portWrite_of_not_mem (h : ¬p.toNat < 8) : portWrite p v s = s := by
  simp only [portWrite, dif_neg h]

/-- Every latch after a write-back (10_state.md R31). -/
theorem writeback_out_getElem {n : Nat} (hn : n < 8) :
    (writeback i s).out[n] =
      if i.op = .out ∧ n = i.opA.val.toNat then readReg i.opB.val s else s.out[n] := by
  obtain ⟨-, hop, v, hv⟩ | ⟨hop, ho⟩ | ⟨-, hop, hs⟩ := writeback_cases i s
  · simp [hv, hop]
  · simp [ho, hop, portWrite_out hn]
  · simp [hs, hop]

/-- Every latch after the write-back stage of a clock, which reads the registers before it. -/
theorem afterWriteBack_out_getElem {n : Nat} (hn : n < 8) :
    (afterWriteBack s).out[n] =
      if s.exReg.op = .out ∧ n = s.exReg.opA.val.toNat then readReg s.exReg.opB.val s else s.out[n] :=
  writeback_out_getElem (s := enterWriteBack s) s.exReg hn

/-! ## What the ALU inputs and a fetch depend on -/

/-- ALU input A depends on the register file and the accumulator alone (40_pipeline.md R118). -/
theorem aluInputA_congr (mode : AddrMode) (a : Operand) (hx : s.x = t.x) (hacc : s.acc = t.acc) :
    aluInputA mode a s = aluInputA mode a t := by
  cases mode with
  | none | s => exact readReg_congr _ hx
  | u | x => exact hacc

/-- ALU input B depends on the register file alone (40_pipeline.md R118). -/
theorem aluInputB_congr (b : Operand) (hx : s.x = t.x) : aluInputB b s = aluInputB b t :=
  readReg_congr _ hx

/-- A fetch takes the entry of the store at the address, which is below 32 (40_pipeline.md R115). -/
theorem ifetch_eq_imemAt (pc : PcAddr) (s : State) : ifetch pc s = imemAt pc.toNat s := by
  simp only [ifetch, imemAt, Nat.mod_eq_of_lt pc.isLt]

/-! ## The output latches: no stage reads them -/

theorem writeReg_withOut :
    writeReg j v { s with out := o } =
      { writeReg j v s with out := (writeReg j v { s with out := o }).out } := by
  unfold writeReg; split <;> rfl

theorem portWrite_withOut :
    portWrite p v { s with out := o } =
      { portWrite p v s with out := (portWrite p v { s with out := o }).out } := by
  unfold portWrite; split <;> rfl

/-- From other latches a write-back leaves everything but the latches as before (10_state.md R31). -/
theorem writeback_withOut :
    writeback i { s with out := o } =
      { writeback i s with out := (writeback i { s with out := o }).out } := by
  cases i with
  | imm | mov | add | sadd | uadd | addc | saddc | uaddc => exact writeReg_withOut _ _ _
  | out => exact portWrite_withOut _ _ _
  | noop | xadd | xaddc | shr | not | jmp | bie => rfl

theorem afterWriteBack_withOut :
    afterWriteBack { s with out := o } =
      { afterWriteBack s with out := (afterWriteBack { s with out := o }).out } :=
  writeback_withOut (s := enterWriteBack s) s.exReg o

theorem branch_withOut : branch i { s with out := o } = { branch i s with out := o } := by
  cases i <;> rfl

/-- The execute stage neither reads nor writes a latch (10_state.md R31). -/
theorem execute_withOut :
    aluStep i.op i.mode i.opA i.opB (branch i { s with out := o }) =
      { aluStep i.op i.mode i.opA i.opB (branch i s) with out := o } := by
  rw [branch_withOut]
  rfl

theorem afterExecute_withOut :
    afterExecute { s with out := o } =
      { afterExecute s with out := (afterWriteBack { s with out := o }).out } := by
  simp only [afterExecute]
  rw [afterWriteBack_withOut]
  exact execute_withOut (s := enterExecute (afterWriteBack s)) s.idReg _

/-- From other latches a clock leaves everything but the latches as before (10_state.md R31). -/
theorem step_withOut (h : step s = .next t) :
    step { s with out := o } = .next { t with out := (afterWriteBack { s with out := o }).out } := by
  obtain rfl := eq_of_step h
  rw [step_eq, afterExecute_withOut]
  rfl

/-! ## The flags: no stage reads them -/

theorem writeReg_withFlags : writeReg j v { s with flags := f } = { writeReg j v s with flags := f } := by
  unfold writeReg; split <;> rfl

theorem portWrite_withFlags : portWrite p v { s with flags := f } = { portWrite p v s with flags := f } := by
  unfold portWrite; split <;> rfl

theorem writeback_withFlags : writeback i { s with flags := f } = { writeback i s with flags := f } := by
  cases i with
  | imm | mov | add | sadd | uadd | addc | saddc | uaddc => exact writeReg_withFlags _ _ _
  | out => exact portWrite_withFlags _ _ _
  | noop | xadd | xaddc | shr | not | jmp | bie => rfl

theorem branch_withFlags : branch i { s with flags := f } = { branch i s with flags := f } := by
  cases i <;> rfl

/-- The execute stage overwrites all four flags and reads none (10_state.md R28). -/
theorem execute_withFlags :
    aluStep i.op i.mode i.opA i.opB (branch i { s with flags := f }) =
      aluStep i.op i.mode i.opA i.opB (branch i s) := by
  rw [branch_withFlags]
  rfl

/-- The execute stage of a clock leaves the same state whatever the flags before it (10_state.md R28). -/
theorem afterExecute_withFlags : afterExecute { s with flags := f } = afterExecute s := by
  have hw : afterWriteBack { s with flags := f } = { afterWriteBack s with flags := f } :=
    writeback_withFlags (s := enterWriteBack s) s.exReg f
  simp only [afterExecute, hw]
  exact execute_withFlags (s := enterExecute (afterWriteBack s)) s.idReg f

/-! ## The pipeline registers: no instruction's effect changes one -/

/-- The effect of an instruction, in either stage, leaves the four pipeline registers alone (10_state.md R29). -/
theorem exec_pipeline_frame (h : exec i s = .next t) :
    t.ifReg = s.ifReg ∧ t.idReg = s.idReg ∧ t.exReg = s.exReg ∧ t.wbReg = s.wbReg := by
  cases hs : s.stage with
  | execute =>
    obtain rfl := Host.Outcome.next.inj ((exec_of_execute i hs).symm.trans h)
    simp
  | writeBack =>
    obtain rfl := Host.Outcome.next.inj ((exec_of_writeBack i hs).symm.trans h)
    simp

end Sys2Proof.Machine
end

section
/-! SUPPORT. The statements about registers, output latches, flags and pipeline registers (10_state.md R23, R28, R29, R31), settled. -/

namespace Sys2Proof.Machine

open Sys2Proof.Claims

/-- Settles O1: of the stages of a clock only the write-back touches the register file, and it writes at
operand A. -/
theorem registersOneToSevenAreStorage : Obligations.RegistersOneToSevenAreStorage := by
  refine ⟨fun i v s h₁ h₇ => ?_, fun i h₁ h₇ => ?_, fun i s s' _ _ hstep hne => ?_⟩
  · rw [readReg_writeReg, if_pos ⟨rfl, h₁, by omega⟩]
  · rw [readReg_of_mem ⟨h₁, by omega⟩]
    exact Vector.getElem_replicate _
  · obtain rfl := eq_of_step hstep
    have hread : readReg i (endClock (afterExecute s)) = readReg i (afterWriteBack s) :=
      readReg_congr i (by simp)
    exact writesOperandA_of_readReg_writeback_ne (s := enterWriteBack s) s.exReg i (hread ▸ hne)

/-- Settles O4: the write-back of an OUT fixes every latch, and every other part of a clock is the same from any
latches. -/
theorem outputLatchesChangeOnlyByOut : Obligations.OutputLatchesChangeOnlyByOut := by
  refine ⟨fun n h => Vector.getElem_replicate h, fun s s' hstep hne => ?_, fun s s' o hstep => ?_,
    fun _ => rfl, fun p v s hp => ?_⟩
  · obtain rfl := eq_of_step hstep
    by_contra hop
    refine hne (Vector.ext fun n hn => ?_)
    simp [afterWriteBack_out_getElem hn, hop]
  · exact ⟨_, step_withOut o hstep, fun n hn => afterWriteBack_out_getElem hn⟩
  · exact portWrite_of_not_mem p v (by omega)

/-- Settles O5: the execute stage overwrites all four flags, and neither the write-back nor the branch before it
reads one. -/
theorem flagsAreRecomputedAndNeverRead : Obligations.FlagsAreRecomputedAndNeverRead := by
  refine ⟨rfl, fun i s => ?_, fun i s f => ?_, fun s f => ?_, fun _ => rfl⟩
  · have hA : aluInputA i.mode i.opA (branch i (inExecute s)) = aluInputA i.mode i.opA s :=
      aluInputA_congr _ _ (by simp) (by simp)
    have hB : aluInputB i.opB (branch i (inExecute s)) = aluInputB i.opB s := aluInputB_congr _ (by simp)
    exact ⟨_, exec_of_execute i rfl, by rw [aluStep_flags, hA, hB]⟩
  · rw [exec_of_execute i rfl, exec_of_execute i rfl]
    exact congrArg Host.Outcome.next (execute_withFlags (s := inExecute s) i f)
  · rw [step_eq, step_eq, afterExecute_withFlags]

/-- Settles O6: the write-back stage takes EX and overwrites WB, the later stages take their own register, and
the effects of the two instructions leave all four alone. -/
theorem pipelineRegistersShift : Obligations.PipelineRegistersShift := by
  refine ⟨⟨rfl, rfl, rfl, rfl⟩, fun s => ?_, fun s w => ?_, fun i s t => exec_pipeline_frame i⟩
  · refine ⟨_, step_eq s, by simp, by simp, by simp, (afterExecute s).pc.toNat, ?_⟩
    exact (ifetch_congr _ afterExecute_imem).trans (ifetch_eq_imemAt _ s)
  · have hwb : enterWriteBack { s with wbReg := w } = enterWriteBack s := rfl
    simp only [step, hwb]

end Sys2Proof.Machine
end

section
/-! SUPPORT. What an instruction can answer, what any number of clocks keeps, and the instruction store, which neither writes. -/

namespace Sys2Proof.Machine

open Sys2Proof.Claims

variable {s t : State} {i : Instr}

/-- The only states exec can answer: the branch and the ALU step in the execute stage, the write-back in the
other (40_pipeline.md R112, R113). -/
theorem exec_cases (h : exec i s = .next t) :
    (s.stage = .execute ∧ t = aluStep i.op i.mode i.opA i.opB (branch i s)) ∨
      (s.stage = .writeBack ∧ t = writeback i s) := by
  cases hs : s.stage with
  | execute => exact .inl ⟨rfl, Host.Outcome.next.inj (h.symm.trans (exec_of_execute i hs))⟩
  | writeBack => exact .inr ⟨rfl, Host.Outcome.next.inj (h.symm.trans (exec_of_writeBack i hs))⟩

/-- No instruction, in either stage, writes the instruction store (20_memory.md R61). -/
theorem exec_imem (h : exec i s = .next t) : t.imem = s.imem := by
  obtain ⟨-, rfl⟩ | ⟨-, rfl⟩ := exec_cases h
  · rw [aluStep_imem, branch_imem]
  · rw [writeback_imem]

/-- What every clock keeps, any number of clocks keeps. -/
theorem run_preserves {P : State → Prop} (hclock : ∀ s, P s → P (endClock (afterExecute s))) {n : Nat}
    (h : run n s = .next t) (hs : P s) : P t := by
  induction n generalizing s with
  | zero =>
    obtain rfl := Host.Outcome.next.inj ((run_zero s).symm.trans h)
    exact hs
  | succ n ih => exact ih ((run_succ n s).symm.trans h) (hclock s hs)

/-- No number of clocks writes the instruction store (20_memory.md R61). -/
theorem run_imem {n : Nat} (h : run n s = .next t) : t.imem = s.imem := by
  refine run_preserves (P := fun u => u.imem = s.imem) (fun u hu => ?_) h rfl
  rw [endClock_imem, afterExecute_imem, hu]

end Sys2Proof.Machine
end

section
/-! SUPPORT. The statement about the instruction store (20_memory.md R61), settled. -/

namespace Sys2Proof.Machine

open Sys2Proof.Claims

/-- Settles O7: neither stage of an instruction writes the store, so every clock keeps it, and so does any number
of clocks. -/
theorem instructionStoreNeverChanges : Obligations.InstructionStoreNeverChanges :=
  ⟨fun _ _ _ => exec_imem, fun _ _ _ => run_imem⟩

end Sys2Proof.Machine
end

section
/-! SUPPORT. Binary literals, the lines of a source and the assembler's answer, each by what it can be. -/

namespace Sys2Proof.Machine

/-! ## Binary literals (30_encoding.md R90) -/

/-- The weight of the digit at a position from the right: 1 for a `1`, 0 for a `0` and beyond the digits. -/
def bitAt (ds : List Char) (k : Nat) : Nat := if ds.reverse[k]? = some '1' then 1 else 0

theorem bitAt_concat_zero {d : Char} (ds : List Char) (h : d = '0' ∨ d = '1') :
    bitAt (ds ++ [d]) 0 = digitValue d := by
  obtain rfl | rfl := h <;> simp [bitAt, digitValue]

theorem bitAt_concat_succ (ds : List Char) (d : Char) (k : Nat) : bitAt (ds ++ [d]) (k + 1) = bitAt ds k := by
  simp [bitAt]

/-- Reading most significant first and doubling gives the sum of digit times power of two: a digit read last moves
the others one position to the left. -/
theorem foldl_eq_sum_bitAt (ds : List Char) (h : ∀ d ∈ ds, d = '0' ∨ d = '1') :
    ds.foldl (fun n d => 2 * n + digitValue d) 0 = ∑ k ∈ Finset.range ds.length, bitAt ds k * 2 ^ k := by
  induction ds using List.reverseRecOn with
  | nil => rfl
  | append_singleton ds d ih =>
    have hd : d = '0' ∨ d = '1' := h d (by simp)
    have ih' := ih fun c hc => h c (by simp [hc])
    calc (ds ++ [d]).foldl (fun n d => 2 * n + digitValue d) 0
        = 2 * (∑ k ∈ Finset.range ds.length, bitAt ds k * 2 ^ k) + digitValue d := by
          rw [List.foldl_concat, ih']
      _ = (∑ k ∈ Finset.range ds.length, bitAt ds k * 2 ^ (k + 1)) + digitValue d := by
          simp only [Finset.mul_sum, pow_succ, mul_comm, mul_assoc]
      _ = ∑ k ∈ Finset.range (ds ++ [d]).length, bitAt (ds ++ [d]) k * 2 ^ k := by
          simp [Finset.sum_range_succ', bitAt_concat_zero ds hd, bitAt_concat_succ]

/-- What may stand after the `B` once the underscores are removed. -/
theorem binaryDigits_iff (cs : List Char) :
    (∀ d ∈ cs.filter (· != '_'), d = '0' ∨ d = '1') ↔ ∀ c ∈ cs, c = '0' ∨ c = '1' ∨ c = '_' := by
  simp only [List.mem_filter, bne_iff_ne]
  exact forall_congr' fun c => by tauto

/-- After the `B` the digits decide: with 0 and 1 alone their value, else no literal. -/
theorem binaryValue?_cons (cs : List Char) :
    binaryValue? ('B' :: cs) =
      if ∀ d ∈ cs.filter (· != '_'), d = '0' ∨ d = '1' then
        some ((cs.filter (· != '_')).foldl (fun n d => 2 * n + digitValue d) 0)
      else none := by
  simp only [binaryValue?, beq_self_eq_true, Bool.true_and, List.all_eq_true, Bool.or_eq_true, beq_iff_eq]

/-! ## Lines (30_encoding.md R93, R99) -/

/-- Only ADD and ADDC resolve with a mode letter (30_encoding.md R93). -/
theorem isAlu_or_mode_none_of_resolveMnemonic {t : Token} {op : Operation} {mode : AddrMode}
    (h : resolveMnemonic t = .ok (op, mode)) : op.isAlu = true ∨ mode = .none := by
  unfold resolveMnemonic at h
  split at h
  next => cases h; exact .inr rfl
  next =>
    split at h
    next => cases h
    next =>
      split at h
      next => cases h
      next op' _ =>
        split at h
        next hop =>
          split at h
          next => cases h; exact .inl hop
          next => cases h
        next => cases h

/-- A resolved operation and mode make an instruction with any operands (30_encoding.md R81). -/
theorem toInstr?_ne_none {op : Operation} {mode : AddrMode} (h : op.isAlu = true ∨ mode = .none) (a b : Operand) :
    RawInstr.toInstr? ⟨op, mode, a, b⟩ ≠ none := by
  rw [← Option.isSome_iff_ne_none, toInstr?_isSome_iff]
  simpa [RawInstr.wellFormed] using h

/-- A line is refused by its error and by nothing else (30_encoding.md R99). -/
def LineResult.RefusedByError (r : LineResult) : Prop := r.instr = none ↔ ∃ m ∈ r.messages, m.1 = .error

theorem refusedByError_of_error {r : LineResult} {e : Message} (hi : r.instr = none)
    (he : (.error, e) ∈ r.messages) : r.RefusedByError :=
  iff_of_true hi ⟨_, he, rfl⟩

theorem refusedByError_of_warnings {r : LineResult} (hi : r.instr ≠ none)
    (hw : ∀ m ∈ r.messages, m.1 = .warning) : r.RefusedByError :=
  iff_of_false hi fun ⟨m, hm, he⟩ => nomatch he.symm.trans (hw m hm)

/-- Each slot ends the line by an error or goes on with warnings; a line that fills both slots has an
instruction. -/
theorem parseOperands_refusedByError {op : Operation} {mode : AddrMode} (h : op.isAlu = true ∨ mode = .none)
    (ts : List Token) : (parseOperands op mode ts).RefusedByError := by
  cases hA : takeSlot (operandRequirements op mode).1 .a ts with
  | error e =>
    simp only [parseOperands, hA]
    exact refusedByError_of_error rfl (List.mem_singleton_self _)
  | ok first =>
    obtain ⟨oa, warnA, rest⟩ := first
    cases hB : takeSlot (operandRequirements op mode).2 .b rest with
    | error e =>
      simp only [parseOperands, hA, hB]
      exact refusedByError_of_error rfl (List.mem_append_right _ (List.mem_singleton_self _))
    | ok second =>
      simp only [parseOperands, hA, hB]
      refine refusedByError_of_warnings (toInstr?_ne_none h oa second.1) fun m hm => ?_
      obtain ⟨_, -, rfl⟩ := List.mem_map.1 hm
      rfl

theorem parseTokens_refusedByError (ts : List Token) : (parseTokens ts).RefusedByError := by
  cases ts with
  | nil => exact refusedByError_of_warnings nofun nofun
  | cons t rest =>
    cases hr : resolveMnemonic t with
    | error e =>
      simp only [parseTokens, hr]
      exact refusedByError_of_error rfl (List.mem_singleton_self _)
    | ok r =>
      simp only [parseTokens, hr]
      exact parseOperands_refusedByError (isAlu_or_mode_none_of_resolveMnemonic hr) rest

/-! ## The assembler's answer (30_encoding.md R98, R99) -/

variable (policy : OversizePolicy) (lines : List (List Char))

/-- There is no Program exactly on an error, whichever policy gives the size diagnostic its severity. -/
theorem assemble_program_eq_none_iff :
    (assemble policy lines).program = none ↔ ∃ d ∈ (assemble policy lines).diagnostics, d.severity = .error := by
  simp only [assemble, ite_eq_left_iff, reduceCtorEq, imp_false, not_not, List.any_eq_true, beq_iff_eq]

/-- The diagnostics of the lines stand in the answer, before the size diagnostic. -/
theorem mem_assemble_diagnostics_of_line {d : Diagnostic} (h : d ∈ diagnosticsFrom 0 (lines.map parseLine)) :
    d ∈ (assemble policy lines).diagnostics :=
  List.mem_append_left _ h

end Sys2Proof.Machine
end

section
/-! SUPPORT. The statements about binary literals and the assembler's answer (30_encoding.md R90, R99), settled. -/

namespace Sys2Proof.Machine

/-- Settles O49: doubling at every digit, most significant first, is the sum of digit times power of two. -/
theorem binaryLiteralsAreSumsOfPowers : Obligations.BinaryLiteralsAreSumsOfPowers := by
  refine fun cs => ⟨fun h => ?_, fun ⟨c, hc, h₀, h₁, hu⟩ => ?_⟩
  · have hds := (binaryDigits_iff cs).2 h
    rw [binaryValue?_cons, if_pos hds, foldl_eq_sum_bitAt _ hds]
    rfl
  · rw [binaryValue?_cons, if_neg]
    intro hds
    obtain h | h | h := (binaryDigits_iff cs).1 hds c hc <;> contradiction

/-- Settles O50: the diagnostics gather every line's messages at its number, and each line, like the whole source,
is refused by an error and by nothing else. -/
theorem assemblerCollectsAllDiagnostics : Obligations.AssemblerCollectsAllDiagnostics := by
  refine fun policy lines => ⟨assemble_program_eq_none_iff policy lines, fun n line hline m hm => ?_,
    fun line => parseTokens_refusedByError (tokensOfLine line), fun p _ => p.length_toList⟩
  have hresult : (lines.map parseLine)[n]? = some (parseLine line) := by rw [List.getElem?_map, hline]; rfl
  exact mem_assemble_diagnostics_of_line policy lines
    ((mem_diagnosticsFrom _ 0 _).2 ⟨n, _, hresult, (Nat.zero_add n).symm, hm⟩)

end Sys2Proof.Machine
end

section
/-! SUPPORT. That clocks always answer, the effect of the branch, and the stages of a clock by name. -/

namespace Sys2Proof.Machine

open Sys2Proof.Claims

variable (i : Instr) (s : State)

/-! ## Clocks always answer (40_pipeline.md R110) -/

theorem step_existsUnique : ∃! t, step s = .next t :=
  ⟨_, step_eq s, fun _ => eq_of_step⟩

/-- Every clock answers, so any number of clocks does. -/
theorem run_next (n : Nat) : ∃ t, run n s = .next t := by
  induction n generalizing s with
  | zero => exact ⟨s, run_zero s⟩
  | succ n ih =>
    obtain ⟨t, ht⟩ := ih (endClock (afterExecute s))
    exact ⟨t, (run_succ n s).trans ht⟩

/-- An active edge with `rst` not asserted is one clock (10_state.md R37). -/
theorem clockEdge_false : clockEdge false s = step s := rfl

/-! ## The branch (40_pipeline.md R113) -/

/-- The branch writes the program counter alone. -/
theorem branch_eq_withPc : branch i s = { s with pc := (branch i s).pc } := by
  cases i <;> rfl

/-- The branch moves the program counter only for a JMP. -/
theorem op_eq_jmp_of_branch_pc_ne (h : (branch i s).pc ≠ s.pc) : i.op = .jmp :=
  not_imp_comm.1 (branch_pc_of_ne_jmp i) h

/-! ## The stages of a clock (40_pipeline.md R112 to R116) -/

/-- The write-back stage of a clock, of the instruction in EX. -/
theorem exec_enterWriteBack : exec s.exReg (enterWriteBack s) = .next (afterWriteBack s) :=
  exec_of_writeBack _ rfl

/-- The execute stage of a clock, of the instruction in ID. -/
theorem exec_enterExecute : exec s.idReg (enterExecute (afterWriteBack s)) = .next (afterExecute s) :=
  exec_of_execute _ rfl

/-- A clock fetches from the store it started with, at the program counter its execute stage left. -/
theorem endClock_afterExecute_ifReg :
    (endClock (afterExecute s)).ifReg = imemAt (afterExecute s).pc.toNat s := by
  rw [endClock_ifReg, ifetch_congr _ afterExecute_imem, ifetch_eq_imemAt]

/-- The advance adds 1 to the five-bit program counter, which wraps to 0 at 32. -/
theorem endClock_pc_toNat : (endClock s).pc.toNat = (s.pc.toNat + 1) % 32 := by
  rw [endClock_pc, BitVec.toNat_add]
  rfl

end Sys2Proof.Machine
end

section
/-! SUPPORT. The statements about clock() and its execute, decode and fetch stages (40_pipeline.md R110, R113 to R116), settled. -/

namespace Sys2Proof.Machine

open Sys2Proof.Claims

/-- Settles O8: each stage of a clock answers one state, so a clock does, and any number of clocks by induction. -/
theorem everyClockHasOneSuccessor : Obligations.EveryClockHasOneSuccessor :=
  ⟨step_existsUnique, fun n s => run_next s n, clockEdge_false⟩

/-- Settles O11: the execute stage is the branch, which writes pc alone and only for JMP, and then the ALU step. -/
theorem executeStageBranchesThenRunsTheAlu : Obligations.ExecuteStageBranchesThenRunsTheAlu := by
  refine ⟨fun s s' hstep => ?_, fun i s => ⟨_, exec_of_execute i rfl, ?_, ?_⟩⟩
  · obtain rfl := eq_of_step hstep
    rw [endClock_exReg, afterExecute_exReg]
  · exact congrArg (aluStep i.op i.mode i.opA i.opB) (branch_eq_withPc i (inExecute s))
  · exact op_eq_jmp_of_branch_pc_ne i (inExecute s)

/-- Settles O12: the states the write-back and execute stages leave are named, and decode, fetch and advance act
on the second. -/
theorem decodeFetchAndAdvance : Obligations.DecodeFetchAndAdvance := fun s =>
  ⟨afterWriteBack s, afterExecute s, endClock (afterExecute s),
    exec_enterWriteBack s,
    exec_enterExecute s,
    step_eq s,
    by rw [endClock_idReg, afterExecute_ifReg],
    endClock_afterExecute_ifReg s,
    endClock_pc_toNat (afterExecute s)⟩

end Sys2Proof.Machine
end

section
/-! SUPPORT. What the invariant needs of a clock, and whole instructions run one after the other. -/

namespace Sys2Proof.Machine

open Sys2Proof.Claims

variable {s t : State} (i : Instr)

/-! ## The accumulator and flags a clock leaves (40_pipeline.md R117 to R122) -/

/-- ALU input A of the execute stage of a clock is read in the state the write-back stage left. -/
theorem aluInputA_branch_enterExecute (mode : AddrMode) (a : Operand) :
    aluInputA mode a (branch i (enterExecute s)) = aluInputA mode a s :=
  aluInputA_congr _ _ (by simp) (by simp)

/-- ALU input B of the execute stage of a clock is read in the state the write-back stage left. -/
theorem aluInputB_branch_enterExecute (b : Operand) :
    aluInputB b (branch i (enterExecute s)) = aluInputB b s :=
  aluInputB_congr _ (by simp)

/-- A clock leaves the accumulator of the ALU step of the instruction in ID, run after the write-back. -/
theorem afterExecute_acc :
    (afterExecute s).acc =
      (aluStep s.idReg.op s.idReg.mode s.idReg.opA s.idReg.opB (afterWriteBack s)).acc := by
  simp only [afterExecute, aluStep_acc, aluInputA_branch_enterExecute, aluInputB_branch_enterExecute]

/-- A clock leaves the flags of the ALU step of the instruction in ID, run after the write-back. -/
theorem afterExecute_flags :
    (afterExecute s).flags =
      (aluStep s.idReg.op s.idReg.mode s.idReg.opA s.idReg.opB (afterWriteBack s)).flags := by
  simp only [afterExecute, aluStep_flags, aluInputA_branch_enterExecute, aluInputB_branch_enterExecute]

/-- 40_pipeline.md R122: the accumulator is cleared by every instruction that is neither ADD nor ADDC. -/
theorem afterExecute_acc_of_not_alu (h : s.idReg.op.isAlu = false) : (afterExecute s).acc = 0#8 := by
  rw [afterExecute_acc, aluStep_acc, aluResult_of_not_alu h]
  rfl

/-- 40_pipeline.md R122: no overflow of an instruction that is neither ADD nor ADDC. -/
theorem afterExecute_ov_of_not_alu (h : s.idReg.op.isAlu = false) : (afterExecute s).flags.ov = false := by
  rw [afterExecute_flags, aluStep_flags, aluResult_of_not_alu h]
  rfl

/-- No clock writes cell 0 of the register file (10_state.md R22). -/
theorem afterExecute_cellZero : (afterExecute s).x[0] = s.x[0] := by
  simp only [afterExecute_x, afterWriteBack, writeback_cellZero, enterWriteBack_x]

/-! ## The invariant -/

theorem inv_clock (h : s.Inv) : (endClock (afterExecute s)).Inv where
  cellZero := afterExecute_cellZero.trans h.cellZero
  accLinked hex := by
    rw [endClock_exReg, afterExecute_exReg] at hex
    exact ⟨afterExecute_acc_of_not_alu hex, afterExecute_ov_of_not_alu hex⟩
  betweenClocks := rfl

/-- The reset values meet the invariant, whatever the store holds. -/
theorem inv_construct (p : Program) : (construct p).Inv where
  cellZero := Vector.getElem_replicate _
  accLinked _ := ⟨rfl, rfl⟩
  betweenClocks := rfl

/-- The invariant does not speak of the input lines. -/
theorem inv_setInput (line : Fin 8) (v : Byte) (h : s.Inv) : (setInput line v s).Inv where
  cellZero := h.cellZero
  accLinked := h.accLinked
  betweenClocks := h.betweenClocks

/-! ## Whole instructions (70_reset_and_hazards.md R211) -/

/-- The state an instruction run whole leaves. -/
def afterWhole (s : State) (i : Instr) : State :=
  writeback i { aluStep i.op i.mode i.opA i.opB (branch i { s with stage := .execute }) with stage := .writeBack }

theorem runWhole_eq_afterWhole (s : State) : runWhole i s = .next (afterWhole s i) := runWhole_eq i s

/-- Instructions run whole, in order, always answer. -/
theorem runAll_eq (is : List Instr) (s : State) : runAll is s = .next (is.foldl afterWhole s) := by
  induction is generalizing s with
  | nil => rfl
  | cons i is ih => simp only [runAll, runWhole_eq_afterWhole, ih, List.foldl_cons]

/-- A whole instruction computes on data alone. -/
theorem afterWhole_sameData (h : sameData s t) : sameData (afterWhole s i) (afterWhole t i) :=
  writeback_sameData i
    (execute_sameData (s := { s with stage := .execute }) (t := { t with stage := .execute }) i h)

theorem foldl_afterWhole_sameData (is : List Instr) (h : sameData s t) :
    sameData (is.foldl afterWhole s) (is.foldl afterWhole t) := by
  induction is generalizing s t with
  | nil => exact h
  | cons i is ih => exact ih (afterWhole_sameData i h)

/-- The simulation step: draining the state after a clock is running the instruction in ID whole on the drained
state before it. -/
theorem afterWriteBack_clock_sameData (s : State) :
    sameData (afterWriteBack (endClock (afterExecute s))) (afterWhole (afterWriteBack s) s.idReg) := by
  have hex : sameData (afterExecute s) (aluStep s.idReg.op s.idReg.mode s.idReg.opA s.idReg.opB
      (branch s.idReg { afterWriteBack s with stage := .execute })) :=
    execute_sameData s.idReg (sameData_refl (afterWriteBack s))
  have hreg : (endClock (afterExecute s)).exReg = s.idReg := by rw [endClock_exReg, afterExecute_exReg]
  rw [afterWriteBack, hreg]
  exact writeback_sameData s.idReg hex

theorem executedIn_length (n : Nat) (s : State) : (executedIn n s).length = n := by
  induction n generalizing s with
  | zero => rfl
  | succ n ih => rw [executedIn_succ, List.length_cons, ih]

/-- The simulation: clocks, with both ends drained, are whole instructions in execution order. -/
theorem run_sameData_executedIn {n : Nat} (h : run n s = .next t) :
    sameData (afterWriteBack t) ((executedIn n s).foldl afterWhole (afterWriteBack s)) := by
  induction n generalizing s with
  | zero =>
    obtain rfl := Host.Outcome.next.inj ((run_zero s).symm.trans h)
    exact sameData_refl _
  | succ n ih =>
    rw [executedIn_succ, List.foldl_cons]
    exact sameData_trans (ih ((run_succ n s).symm.trans h))
      (foldl_afterWhole_sameData _ (afterWriteBack_clock_sameData s))

end Sys2Proof.Machine
end

section
/-! SUPPORT. Which words decode to which instruction (30_encoding.md R74, R82). -/

namespace Sys2Proof

/-- The record of an instruction spells it (30_encoding.md R81, R86). -/
theorem toInstr?_toRaw (i : Instr) : RawInstr.toInstr? i.toRaw = some i := by
  cases i <;> rfl

/-- The record the fields of a word give, once its operation is read (30_encoding.md R74). -/
def recordOfWord (op : Operation) (w : Word) : RawInstr :=
  ⟨op, modeOfCode (w.extractLsb' 24 2), operandOfWord w 22 8, operandOfWord w 20 0⟩

/-- Everything a word that spells an instruction is. -/
theorem decode_eq_ok_iff (w : Word) (i : Instr) :
    decode w = .ok i ↔
      ∃ op, operationOfCode (w.extractLsb' 28 4) = some op ∧
        (w.extractLsb' 26 2 = 0#2 ∧ w.extractLsb' 16 4 = 0#4) ∧ (recordOfWord op w).toInstr? = some i := by
  unfold decode
  cases operationOfCode (w.extractLsb' 28 4) with
  | none => simp
  | some op =>
    by_cases hz : w.extractLsb' 26 2 = 0#2 ∧ w.extractLsb' 16 4 = 0#4
    · simp only [recordOfWord, hz, Option.some.injEq, exists_eq_left', true_and]
      cases RawInstr.toInstr? ⟨op, _, _, _⟩ <;> simp
    · simp [hz]

/-- The fields of an encoded record give the record back. -/
theorem recordOfWord_encode (r : RawInstr) : recordOfWord r.op r.encode = r := by
  simp only [recordOfWord, operandOfWord, encode_mode, encode_kindA, encode_kindB, encode_valA, encode_valB,
    modeOfCode_code, kindOfCode_code]

theorem decode_encode (i : Instr) : decode (encode i) = .ok i := by
  refine (decode_eq_ok_iff _ i).2 ⟨i.op, ?_, ⟨encode_reservedHi _, encode_reservedLo _⟩, ?_⟩
  · rw [encode, encode_op, operationOfCode_code]
  · rw [encode, recordOfWord_encode, toInstr?_toRaw]

end Sys2Proof
end

section
/-! SUPPORT. The statements about the invariant, the pipeline as a machine of whole instructions, and decoding an encoded instruction, settled. -/

namespace Sys2Proof.Machine

/-- Settles O30: the execute stage re-establishes the accumulator clause for the instruction it puts into EX, and
nothing writes cell 0. -/
theorem invariantIsKept : Obligations.InvariantIsKept := fun s h =>
  ⟨fun _ hstep => eq_of_step hstep ▸ inv_clock h, inv_construct s.imem, fun line v => inv_setInput line v h⟩

/-- Settles O31: at reset every cell, the accumulator and ov are 0. -/
theorem invariantHoldsAtReset : Obligations.InvariantHoldsAtReset :=
  ⟨inv_construct State.reset.imem, inv_construct⟩

/-- Settles O32, by the simulation of a clock by one whole instruction, on drained states. -/
theorem pipelineRunsWholeInstructionsInOrder : Obligations.PipelineRunsWholeInstructionsInOrder := by
  intro n s
  obtain ⟨s', hs'⟩ := run_next s n
  exact ⟨s', afterWriteBack s, afterWriteBack s', _, hs', drained_eq s, drained_eq s', executedIn_length n s,
    runAll_eq _ _, run_sameData_executedIn hs'⟩

/-- Settles O43: every field of the word is read back as it was packed. -/
theorem decodeOfEncode : Obligations.DecodeOfEncode := decode_encode

end Sys2Proof.Machine
end

section
/-! SUPPORT. The two stages of an instruction in the terms the statements about instructions are written in. -/

namespace Sys2Proof.Machine

open Sys2Proof.Claims

variable {s : State} {i : Instr} {dst : Byte} {val : State → Byte}

/-! ## The execute stage -/

/-- Only a JMP branches (43_control.md R172). -/
theorem branch_of_ne_jmp (h : i.op ≠ .jmp) (s : State) : branch i s = s := by
  rw [branch_eq_withPc, branch_pc_of_ne_jmp i h]

/-- The accumulator after a result, as the statements on instructions spell it (40_pipeline.md R121). -/
theorem wrap_spec (r : Nat) :
    (r ≤ 255 → (wrap r).toNat = r) ∧ (256 ≤ r → r ≤ 510 → (wrap r).toNat = r - 255) ∧
      (r = 511 → wrap r = Config.addc511Acc) := by
  refine ⟨fun h => ?_, fun h₁ h₂ => ?_, ?_⟩
  · rw [wrap_toNat (by omega), if_pos h]
  · rw [wrap_toNat h₂, if_neg (by omega)]
  · rintro rfl
    exact wrap_511

/-- The execute stage of an instruction that is no JMP is the ALU step on the inputs its mode selects
(40_pipeline.md R113, R117). -/
theorem runsAlu_of_ne_jmp (h : i.op ≠ .jmp) :
    runsAlu i (aluInputA i.mode i.opA) (aluInputB i.opB)
      (fun s => aluResult i.op (aluInputA i.mode i.opA s) (aluInputB i.opB s)) := by
  intro s
  obtain ⟨hsmall, hwrapped, hlast⟩ := wrap_spec (aluResult i.op (aluInputA i.mode i.opA s) (aluInputB i.opB s))
  have hexec : exec i (inExecute s) = .next (aluStep i.op i.mode i.opA i.opB (inExecute s)) := by
    rw [exec_of_execute i rfl, branch_of_ne_jmp h]
  have hA : aluInputA i.mode i.opA (inExecute s) = aluInputA i.mode i.opA s := aluInputA_congr _ _ rfl rfl
  have hacc : (aluStep i.op i.mode i.opA i.opB (inExecute s)).acc =
      wrap (aluResult i.op (aluInputA i.mode i.opA s) (aluInputB i.opB s)) := by
    rw [aluStep_acc, hA]
    rfl
  refine ⟨_, hexec, ?_, hacc ▸ hsmall, hacc ▸ hwrapped, hacc ▸ hlast, aluStep_frame (s := inExecute s) _ _ _ _⟩
  rw [aluStep_flags, hA]
  rfl

/-! ## The write-back stage -/

theorem writesNothing_of_writeback (h : ∀ s, writeback i s = s) : writesNothing i := fun s =>
  (exec_of_writeBack i rfl).trans (congrArg _ (h (inWriteBack s)))

/-- A write-back that is one register write (10_state.md R22 to R25). -/
theorem writesRegister_of_writeback
    (h : ∀ s, writeback i (inWriteBack s) = writeReg dst (val s) (inWriteBack s)) : writesRegister i dst val := by
  intro s
  refine ⟨_, (exec_of_writeBack i rfl).trans (congrArg _ (h s)), fun j => ?_, writeReg_cellZero,
    writeReg_frame (s := inWriteBack s)⟩
  exact readReg_writeReg.trans (if_congr (and_congr_right fun _ => by omega) rfl rfl)

/-- A write-back that is one port write (10_state.md R31). -/
theorem writesLatch_of_writeback
    (h : ∀ s, writeback i (inWriteBack s) = portWrite dst (val s) (inWriteBack s)) : writesLatch i dst val :=
  fun s => ⟨_, (exec_of_writeBack i rfl).trans (congrArg _ (h s)), fun _ hn => portWrite_out hn,
    portWrite_frame (s := inWriteBack s)⟩

/-- A write-back that changes the register file is a register write at operand A (10_state.md R25). -/
theorem writeback_x_of_ne (h : (writeback i s).x ≠ s.x) :
    writesOperandA i ∧ ∃ v, writeback i s = writeReg i.opA.val v s := by
  obtain ⟨hw, -, hv⟩ | ⟨-, ho⟩ | ⟨-, -, hn⟩ := writeback_cases i s
  · exact ⟨hw, hv⟩
  · exact absurd (by rw [ho, portWrite_x]) h
  · exact absurd (by rw [hn]) h

end Sys2Proof.Machine
end

section
/-! SUPPORT. The statements about the instructions, both stages with what each leaves alone (41_data_movement.md, 42_alu.md, 43_control.md), settled. -/

namespace Sys2Proof.Machine

open Sys2Proof.Claims

/-- Settles O2: such an index is outside the range readReg and writeReg use. -/
theorem registerZeroAndBeyondSevenReadZero : Obligations.RegisterZeroAndBeyondSevenReadZero := by
  refine ⟨fun i v s hi => ⟨readReg_of_not_mem (by omega), writeReg_of_not_mem (by omega)⟩, fun s => ?_⟩
  simp only [State.snapshot, Vector.getElem_ofFn]
  exact readReg_of_not_mem (by decide)

/-- Settles O3: the branch and the ALU step leave the register file alone, and a write-back that changes it is one
register write at operand A. -/
theorem onlyWriteBackWritesRegisters : Obligations.OnlyWriteBackWritesRegisters := by
  refine ⟨fun i s t hexec => ?_, fun i s t hexec hne => ?_⟩
  · obtain rfl := Host.Outcome.next.inj ((exec_of_execute i rfl).symm.trans hexec)
    rw [aluStep_x, branch_x]
  · obtain rfl := Host.Outcome.next.inj ((exec_of_writeBack i rfl).symm.trans hexec)
    obtain ⟨hw, v, hv⟩ := writeback_x_of_ne (s := inWriteBack s) hne
    refine ⟨hw, fun n hn hna => ?_⟩
    simp only [hv]
    exact writeReg_cell_ne hn hna

/-- Settles O13: the ALU step narrows the exact sum by Wrap. -/
theorem sumIsExactThenNarrowed : Obligations.SumIsExactThenNarrowed := by
  intro i s halu
  have hjmp : i.op ≠ .jmp := fun h => by simp [h, Operation.isAlu] at halu
  have hsum : aluResult i.op (aluInputA i.mode i.opA s) (aluInputB i.opB s) =
      (aluInputA i.mode i.opA s).toNat + (aluInputB i.opB s).toNat + (if i.op = .addc then 1 else 0) := by
    cases hop : i.op <;> simp_all [aluResult, Operation.isAlu]
  obtain ⟨t, hexec, hflags, hsmall, hwrapped, -, -⟩ := runsAlu_of_ne_jmp hjmp s
  refine ⟨t, hexec, _, hsum, aluResult_le _ _ _, ?_, hsmall, fun h₁ h₂ => ⟨hwrapped h₁ h₂, ?_⟩⟩
  · rw [hflags]
    exact decide_eq_true_iff
  · have hmod : ∀ r, 256 ≤ r → r ≤ 510 → r - 255 = r % 256 + 1 := by omega
    exact (hwrapped h₁ h₂).trans (hmod _ h₁ h₂)

/-- Settles O14: their result is 0, and their write-back is empty. -/
theorem noopShrNotBieOnlyRunTheAluStep : Obligations.NoopShrNotBieOnlyRunTheAluStep := by
  intro a b
  simp only [List.forall_mem_cons]
  exact ⟨⟨runsAlu_of_ne_jmp (i := .noop a b) nofun, writesNothing_of_writeback fun _ => rfl⟩,
    ⟨runsAlu_of_ne_jmp (i := .shr a b) nofun, writesNothing_of_writeback fun _ => rfl⟩,
    ⟨runsAlu_of_ne_jmp (i := .not a b) nofun, writesNothing_of_writeback fun _ => rfl⟩,
    ⟨runsAlu_of_ne_jmp (i := .bie a b) nofun, writesNothing_of_writeback fun _ => rfl⟩, nofun⟩

/-- Settles O15: the result is 0, and the write-back is one register write of the immediate. -/
theorem immLoadsItsImmediate : Obligations.ImmLoadsItsImmediate := fun a b =>
  ⟨runsAlu_of_ne_jmp (i := .imm a b) nofun, writesRegister_of_writeback fun _ => rfl⟩

/-- Settles O16: the result is 0, and the write-back reads register B before it writes register A. -/
theorem movCopiesItsSource : Obligations.MovCopiesItsSource := fun a b =>
  ⟨runsAlu_of_ne_jmp (i := .mov a b) nofun, writesRegister_of_writeback fun _ => rfl⟩

/-- Settles O17: the result is 0, and the write-back is one port write. -/
theorem outWritesItsLatch : Obligations.OutWritesItsLatch := fun a b =>
  ⟨runsAlu_of_ne_jmp (i := .out a b) nofun, writesLatch_of_writeback fun _ => rfl⟩

/-- Settles O18: modes None and S read register A. -/
theorem addAndSaddAddRegisters : Obligations.AddAndSaddAddRegisters := by
  intro a b
  simp only [List.forall_mem_cons]
  exact ⟨⟨runsAlu_of_ne_jmp (i := .add a b) nofun, writesRegister_of_writeback fun _ => rfl⟩,
    ⟨runsAlu_of_ne_jmp (i := .sadd a b) nofun, writesRegister_of_writeback fun _ => rfl⟩, nofun⟩

/-- Settles O19: mode U reads the accumulator. -/
theorem uaddAddsToTheAccumulator : Obligations.UaddAddsToTheAccumulator := fun a b =>
  ⟨runsAlu_of_ne_jmp (i := .uadd a b) nofun, writesRegister_of_writeback fun _ => rfl⟩

/-- Settles O20: mode X reads the accumulator and has an empty write-back. -/
theorem xaddAddsAndWritesNoRegister : Obligations.XaddAddsAndWritesNoRegister := fun a b =>
  ⟨runsAlu_of_ne_jmp (i := .xadd a b) nofun, writesNothing_of_writeback fun _ => rfl⟩

/-- Settles O21: modes None and S read register A, and the result is the sum plus one. -/
theorem addcAndSaddcAddOneMore : Obligations.AddcAndSaddcAddOneMore := by
  intro a b
  simp only [List.forall_mem_cons]
  exact ⟨⟨runsAlu_of_ne_jmp (i := .addc a b) nofun, writesRegister_of_writeback fun _ => rfl⟩,
    ⟨runsAlu_of_ne_jmp (i := .saddc a b) nofun, writesRegister_of_writeback fun _ => rfl⟩, nofun⟩

/-- Settles O22: mode U reads the accumulator, and the result is the sum plus one. -/
theorem uaddcAddsOneMoreToTheAccumulator : Obligations.UaddcAddsOneMoreToTheAccumulator := fun a b =>
  ⟨runsAlu_of_ne_jmp (i := .uaddc a b) nofun, writesRegister_of_writeback fun _ => rfl⟩

/-- Settles O23: mode X reads the accumulator, the result is the sum plus one, and the write-back is empty. -/
theorem xaddcAddsOneMoreAndWritesNoRegister : Obligations.XaddcAddsOneMoreAndWritesNoRegister := fun a b =>
  ⟨runsAlu_of_ne_jmp (i := .xaddc a b) nofun, writesNothing_of_writeback fun _ => rfl⟩

/-- Settles O24: the branch writes pc alone, and the ALU step has result 0. -/
theorem jmpWritesThePc : Obligations.JmpWritesThePc := fun a b =>
  ⟨fun s => ⟨_, exec_of_execute (s := inExecute s) (.jmp a b) rfl, BitVec.toNat_setWidth 5 a.val, rfl, rfl, rfl⟩,
    writesNothing_of_writeback fun _ => rfl⟩

/-- Settles O25: in the execute stage modes None and S select the same ALU inputs, and the write-backs are the
same. -/
theorem modeSEqualsModeNone : Obligations.ModeSEqualsModeNone := fun _ _ _ => ⟨rfl, rfl⟩

/-- Settles O26: the write-back of the whole instruction writes the accumulator its execute stage left. -/
theorem addRunWholeWritesItsSum : Obligations.AddRunWholeWritesItsSum := by
  intro a b s
  refine ⟨_, runWhole_eq (.add a b) s, ?_, fun j => ?_, ?_, ?_, ?_⟩
  · rw [writeback_acc]
    rfl
  · rw [writeback_acc]
    exact readReg_writeReg.trans (if_congr (and_congr_right fun hj => by rw [hj]; omega) rfl rfl)
  · exact writeReg_out _ _ _
  · exact writeback_pc _
  · exact writeback_imem _

end Sys2Proof.Machine
end

section
/-! SUPPORT. Where instructions are after a clock and after a number of clocks, and the program counter's path. -/

namespace Sys2Proof.Machine

open Sys2Proof.Claims

variable {s t : State} {i : Instr}

/-- A fetch depends on the store and on the address mod 32. -/
theorem imemAt_congr {m n : Nat} (hs : s.imem = t.imem) (h : m % 32 = n % 32) : imemAt m s = imemAt n t := by
  simp only [imemAt, hs, h]

/-! ## One clock -/

theorem clock_idReg : (endClock (afterExecute s)).idReg = s.ifReg := by
  rw [endClock_idReg, afterExecute_ifReg]

theorem clock_exReg : (endClock (afterExecute s)).exReg = s.idReg := by
  rw [endClock_exReg, afterExecute_exReg]

theorem clock_wbReg : (endClock (afterExecute s)).wbReg = s.exReg := by
  rw [endClock_wbReg, afterExecute_wbReg]

theorem clock_imem : (endClock (afterExecute s)).imem = s.imem := by
  rw [endClock_imem, afterExecute_imem]

/-- Without a JMP a clock fetches at the program counter (40_pipeline.md R115). -/
theorem clock_ifReg_of_ne_jmp (h : s.idReg.op ≠ .jmp) :
    (endClock (afterExecute s)).ifReg = imemAt s.pc.toNat s := by
  rw [endClock_afterExecute_ifReg, afterExecute_pc_of_ne_jmp h]

/-- Without a JMP a clock moves the program counter by one (40_pipeline.md R116). -/
theorem clock_pc_of_ne_jmp (h : s.idReg.op ≠ .jmp) :
    (endClock (afterExecute s)).pc.toNat = (s.pc.toNat + 1) % 32 := by
  rw [endClock_pc_toNat, afterExecute_pc_of_ne_jmp h]

/-- A JMP in ID has the clock fetch at its target (43_control.md R170). -/
theorem clock_ifReg_of_jmp {a b : Operand} (h : s.idReg = .jmp a b) :
    (endClock (afterExecute s)).ifReg = imemAt a.val.toNat s := by
  rw [endClock_afterExecute_ifReg, afterExecute_pc_of_jmp h]
  exact imemAt_congr rfl (Nat.mod_mod _ _)

/-- A JMP in ID leaves the program counter one after its target. -/
theorem clock_pc_of_jmp {a b : Operand} (h : s.idReg = .jmp a b) :
    (endClock (afterExecute s)).pc.toNat = (a.val.toNat + 1) % 32 := by
  rw [endClock_pc_toNat, afterExecute_pc_of_jmp h, Nat.mod_add_mod]

/-- The write-back stage of a clock is the write-back of EX, but for the fields the clock itself sets. -/
theorem afterWriteBack_sameData (s : State) : sameData (afterWriteBack s) (writeback s.exReg s) :=
  writeback_sameData (s := enterWriteBack s) s.exReg ⟨rfl, rfl, rfl, rfl⟩

/-- A clock leaves the registers its write-back stage left: those of the write-back of EX. -/
theorem clock_x : (endClock (afterExecute s)).x = (writeback s.exReg s).x := by
  obtain ⟨hx, -⟩ := afterWriteBack_sameData s
  rw [endClock_x, afterExecute_x, hx]

/-- A clock leaves the latches its write-back stage left: those of the write-back of EX. -/
theorem clock_out : (endClock (afterExecute s)).out = (writeback s.exReg s).out := by
  obtain ⟨-, hout, -⟩ := afterWriteBack_sameData s
  rw [endClock_out, afterExecute_out, hout]

/-! ## The flags a clock leaves -/

/-- Of two bytes exactly one compare holds (40_pipeline.md R120). -/
theorem aluFlags_exactlyOneCompare (p q : Byte) (r : Nat) : (aluFlags p q r).exactlyOneCompare := by
  obtain ⟨-, h⟩ | ⟨-, h⟩ | ⟨-, h⟩ := aluFlags_trichotomy p q r
  · rw [h]; exact .inl ⟨rfl, rfl, rfl⟩
  · rw [h]; exact .inr (.inl ⟨rfl, rfl, rfl⟩)
  · rw [h]; exact .inr (.inr ⟨rfl, rfl, rfl⟩)

/-! ## The clock that executes a canonical no-op (70_reset_and_hazards.md R202) -/

/-- Both operands of a canonical no-op name register 0, so its compare is of 0 with 0. -/
theorem clock_flags_of_noop (h : s.idReg = canonicalNoop) :
    (endClock (afterExecute s)).flags = ⟨true, false, false, false⟩ := by
  have hzero : readReg 0 (afterWriteBack s) = 0#8 := readReg_of_not_mem (by decide)
  rw [endClock_flags, afterExecute_flags, h]
  exact congrArg₂ (fun p q => aluFlags p q 0) hzero hzero

theorem clock_acc_of_noop (h : s.idReg = canonicalNoop) : (endClock (afterExecute s)).acc = 0#8 :=
  afterExecute_acc_of_not_alu (by rw [h]; rfl)

theorem clock_x_of_noop (h : s.exReg = canonicalNoop) : (endClock (afterExecute s)).x = s.x := by
  rw [clock_x, h]
  rfl

theorem clock_out_of_noop (h : s.exReg = canonicalNoop) : (endClock (afterExecute s)).out = s.out := by
  rw [clock_out, h]
  rfl

/-! ## A Program without a JMP (40_pipeline.md R125) -/

/-- One clock more at the end of a run. -/
theorem run_succ_end {n : Nat} (h : run n s = .next t) : run (n + 1) s = .next (endClock (afterExecute t)) :=
  (run_add 1 h).trans ((run_succ 0 t).trans (run_zero _))

/-- Where each instruction is after clock `n` of a Program without a JMP, and that no JMP is in the two registers
from which one would still execute. -/
structure StraightLineAt (p : Program) (n : Nat) (s : State) : Prop where
  imem : s.imem = p
  pc : s.pc.toNat = n % 32
  ifNoJmp : ¬isJmp s.ifReg
  idNoJmp : ¬isJmp s.idReg
  ifReg : 1 ≤ n → s.ifReg = imemAt (n - 1) (construct p)
  idReg : 2 ≤ n → s.idReg = imemAt (n - 2) (construct p)
  exReg : 3 ≤ n → s.exReg = imemAt (n - 3) (construct p)
  wbReg : 4 ≤ n → s.wbReg = imemAt (n - 4) (construct p)

theorem straightLineAt_construct (p : Program) : StraightLineAt p 0 (construct p) where
  imem := rfl
  pc := rfl
  ifNoJmp := nofun
  idNoJmp := nofun
  ifReg := nofun
  idReg := nofun
  exReg := nofun
  wbReg := nofun

/-- A clock moves every instruction one register on and fetches the next address. -/
theorem straightLineAt_clock {p : Program} {n : Nat} (hp : ∀ k, ∀ h : k < 32, ¬isJmp p[k])
    (h : StraightLineAt p n s) : StraightLineAt p (n + 1) (endClock (afterExecute s)) := by
  have hfetch : (endClock (afterExecute s)).ifReg = imemAt n (construct p) := by
    rw [clock_ifReg_of_ne_jmp h.idNoJmp]
    exact imemAt_congr h.imem (by rw [h.pc, Nat.mod_mod])
  exact {
    imem := clock_imem.trans h.imem
    pc := by rw [clock_pc_of_ne_jmp h.idNoJmp, h.pc, Nat.mod_add_mod]
    ifNoJmp := by rw [hfetch]; exact hp _ _
    idNoJmp := clock_idReg ▸ h.ifNoJmp
    ifReg := fun _ => hfetch
    idReg := fun hn => clock_idReg.trans (h.ifReg (by omega))
    exReg := fun hn => clock_exReg.trans (h.idReg (by omega))
    wbReg := fun hn => clock_wbReg.trans (h.exReg (by omega)) }

theorem run_straightLine (p : Program) (hp : ∀ k, ∀ h : k < 32, ¬isJmp p[k]) (n : Nat) :
    ∃ s, run n (construct p) = .next s ∧ StraightLineAt p n s := by
  induction n with
  | zero => exact ⟨_, run_zero _, straightLineAt_construct p⟩
  | succ n ih =>
    obtain ⟨s, hrun, hs⟩ := ih
    exact ⟨_, run_succ_end hrun, straightLineAt_clock hp hs⟩

end Sys2Proof.Machine
end

section
/-! SUPPORT. The statements about where instructions go, the delay slot, the accumulator and the first clocks (40_pipeline.md, 43_control.md, 70_reset_and_hazards.md), settled. -/

namespace Sys2Proof.Machine

open Sys2Proof.Claims

/-- Settles O27: the ALU result of such an instruction is 0, and of these only JMP branches. -/
theorem nonAluClocksClearTheAccumulator : Obligations.NonAluClocksClearTheAccumulator := fun s h =>
  ⟨_, step_eq s, afterExecute_acc_of_not_alu h, afterExecute_ov_of_not_alu h, clock_pc_of_ne_jmp⟩

/-- Settles O28: the write-back of a clock leaves the accumulator, and both ALU inputs are read after it. -/
theorem accumulatorFeedsTheNextInstruction : Obligations.AccumulatorFeedsTheNextInstruction := by
  intro s _ hmode
  have hA : aluInputA s.idReg.mode s.idReg.opA (afterWriteBack s) = s.acc := by
    obtain h | h := hmode
    · rw [h]; exact afterWriteBack_acc
    · rw [h]; exact afterWriteBack_acc
  refine ⟨_, _, step_eq s, drained_eq s, ?_, ?_⟩
  · rw [endClock_acc, afterExecute_acc, aluStep_acc, hA]
    rfl
  · rw [endClock_flags, afterExecute_flags, aluStep_flags, hA]
    rfl

/-- Settles O29: the execute stage sets the compares of two bytes, of which exactly one holds. -/
theorem exactlyOneCompareFlagAfterAClock : Obligations.ExactlyOneCompareFlagAfterAClock := by
  intro s s' hstep
  obtain rfl := eq_of_step hstep
  rw [endClock_flags, afterExecute_flags]
  exact aluFlags_exactlyOneCompare _ _ _

/-- Settles O33: the instruction in IF when the JMP executes is not the fetched target, so it still runs. -/
theorem jmpHasOneDelaySlot : Obligations.JmpHasOneDelaySlot := by
  intro s a b hid
  refine ⟨_, _, step_eq s, step_eq _, clock_exReg.trans hid, clock_pc_of_jmp hid, clock_idReg,
    clock_ifReg_of_jmp hid, clock_exReg.trans clock_idReg, clock_idReg.trans (clock_ifReg_of_jmp hid), fun hif => ?_⟩
  have hslot : (endClock (afterExecute s)).idReg.op ≠ .jmp := by rwa [clock_idReg]
  refine ⟨?_, ?_⟩
  · rw [clock_ifReg_of_ne_jmp hslot, clock_pc_of_jmp hid]
    exact imemAt_congr clock_imem (Nat.mod_mod _ _)
  · rw [clock_pc_of_ne_jmp hslot, clock_pc_of_jmp hid, Nat.mod_add_mod]

/-- Settles O34: the second JMP executes while the first target's instruction is in IF. -/
theorem jmpInADelaySlot : Obligations.JmpInADelaySlot := by
  intro s a b a' b' hid hif
  have hid₁ : (endClock (afterExecute s)).idReg = .jmp a' b' := clock_idReg.trans hif
  have hid₂ : (endClock (afterExecute (endClock (afterExecute s)))).idReg = imemAt a.val.toNat s :=
    clock_idReg.trans (clock_ifReg_of_jmp hid)
  refine ⟨_, _, _, step_eq s, step_eq _, step_eq _, hid₁, hid₂, ?_, fun hbetween => ?_⟩
  · rw [clock_idReg, clock_ifReg_of_jmp hid₁]
    exact imemAt_congr clock_imem rfl
  · rw [clock_ifReg_of_ne_jmp (by rwa [hid₂]), clock_pc_of_jmp hid₁]
    exact imemAt_congr (clock_imem.trans clock_imem) (Nat.mod_mod _ _)

/-- Settles O35: the canonical no-ops of reset execute in clocks 1 and 2 and write back in clocks 1 to 3. -/
theorem pipelineFillAfterReset : Obligations.PipelineFillAfterReset := by
  intro p
  set s₁ := endClock (afterExecute (construct p)) with e₁
  set s₂ := endClock (afterExecute s₁) with e₂
  set s₃ := endClock (afterExecute s₂) with e₃
  have hid₀ : (construct p).idReg = canonicalNoop := rfl
  have hex₀ : (construct p).exReg = canonicalNoop := rfl
  have hid₁ : s₁.idReg = canonicalNoop := clock_idReg
  have hpc₁ : s₁.pc = 1#5 := BitVec.eq_of_toNat_eq (clock_pc_of_ne_jmp (s := construct p) nofun)
  have hpc₂ : s₂.pc = 2#5 := by
    apply BitVec.eq_of_toNat_eq
    rw [clock_pc_of_ne_jmp (by rw [hid₁]; nofun), hpc₁]
    rfl
  have hex₁ : s₁.exReg = canonicalNoop := clock_exReg
  have hex₂ : s₂.exReg = canonicalNoop := clock_exReg.trans hid₁
  have hif₁ : s₁.ifReg = p[0] := clock_ifReg_of_ne_jmp (s := construct p) nofun
  have hid₂ : s₂.idReg = p[0] := clock_idReg.trans hif₁
  have hex₃ : s₃.exReg = p[0] := clock_exReg.trans hid₂
  have hx₁ : s₁.x = State.reset.x := clock_x_of_noop hex₀
  have hx₂ : s₂.x = State.reset.x := (clock_x_of_noop hex₁).trans hx₁
  have hx₃ : s₃.x = State.reset.x := (clock_x_of_noop hex₂).trans hx₂
  have hout₁ : s₁.out = State.reset.out := clock_out_of_noop hex₀
  have hout₂ : s₂.out = State.reset.out := (clock_out_of_noop hex₁).trans hout₁
  have hout₃ : s₃.out = State.reset.out := (clock_out_of_noop hex₂).trans hout₂
  refine ⟨s₁, s₂, s₃, _, step_eq _, step_eq _, step_eq _, step_eq _, ?_, ?_, hpc₁, hif₁, hpc₂, hid₂, hex₃,
    clock_wbReg.trans hex₃⟩
  · simp only [List.forall_mem_cons]
    exact ⟨⟨clock_acc_of_noop hid₀, clock_flags_of_noop hid₀⟩, ⟨clock_acc_of_noop hid₁, clock_flags_of_noop hid₁⟩,
      List.forall_mem_nil _⟩
  · simp only [List.forall_mem_cons]
    exact ⟨⟨hx₁, hout₁⟩, ⟨hx₂, hout₂⟩, ⟨hx₃, hout₃⟩, List.forall_mem_nil _⟩

/-- Settles O36, by induction over the clocks. -/
theorem straightLineProgramOrder : Obligations.StraightLineProgramOrder := by
  intro p n hp
  obtain ⟨s, hrun, hs⟩ := run_straightLine p hp n
  exact ⟨s, hrun, hs.pc, hs.ifReg, hs.idReg, hs.exReg, hs.wbReg⟩

/-- Settles O37: the instruction moves one register a clock, executes from ID and writes back from EX. -/
theorem fetchedInstructionWritesBackThreeClocksLater : Obligations.FetchedInstructionWritesBackThreeClocksLater := by
  intro s₁
  set s₂ := endClock (afterExecute s₁) with e₂
  set s₃ := endClock (afterExecute s₂) with e₃
  have hid : s₂.idReg = s₁.ifReg := clock_idReg
  have hex : s₃.exReg = s₁.ifReg := clock_exReg.trans hid
  have hx : (endClock (afterExecute s₃)).x = (writeback s₁.ifReg s₃).x := by rw [clock_x, hex]
  refine ⟨s₂, s₃, _, step_eq s₁, step_eq s₂, step_eq s₃, hid, hex, clock_wbReg.trans hex,
    ⟨_, drained_eq s₂, hid ▸ afterExecute_acc, hid ▸ afterExecute_flags⟩, hx, by rw [clock_out, hex], ?_⟩
  intro a b himm h₁ h₇
  rw [readReg_congr _ hx, himm]
  exact readReg_writeReg.trans (if_pos ⟨rfl, h₁, by omega⟩)

/-- Settles O38: the values stand in State.reset. -/
theorem constructionGivesTheResetValues : Obligations.ConstructionGivesTheResetValues := by
  refine fun p => ⟨rfl, rfl, rfl, ?_, fun n h => ?_, rfl⟩
  · simp only [List.forall_mem_cons]
    exact ⟨rfl, rfl, rfl, rfl, nofun⟩
  · exact ⟨Vector.getElem_replicate h, Vector.getElem_replicate h, Vector.getElem_replicate h⟩

/-- Settles O39: a reset edge keeps only the store, which no run changes. -/
theorem resetEdgeRestoresConstruction : Obligations.ResetEdgeRestoresConstruction := by
  intro p n
  obtain ⟨s, hs⟩ := run_next (construct p) n
  have himem : s.imem = p := run_imem hs
  exact ⟨s, hs, by rw [clockEdge, if_pos rfl, State.rst, himem]⟩

end Sys2Proof.Machine
end

section
/-! SUPPORT. Which changes of a state a clock carries along: those of fields no stage reads. -/

namespace Sys2Proof.Machine

open Sys2Proof.Claims

variable {s t : State} (i : Instr)

/-- Of a change `g` of the state: it leaves what a write-back reads and commutes with what it writes. -/
structure SparesData (g : State → State) : Prop where
  readReg : ∀ j s, readReg j (g s) = readReg j s
  acc : ∀ s : State, (g s).acc = s.acc
  writeReg : ∀ j v s, writeReg j v (g s) = g (writeReg j v s)
  portWrite : ∀ p v s, portWrite p v (g s) = g (portWrite p v s)

/-- Such a change passes through every write-back. -/
theorem SparesData.writeback {g : State → State} (h : SparesData g) (s : State) :
    writeback i (g s) = g (writeback i s) := by
  cases i with
  | imm a b => exact h.writeReg _ _ _
  | mov a b => exact (congrArg (Machine.writeReg a.val · (g s)) (h.readReg b.val s)).trans (h.writeReg _ _ _)
  | add a _ | sadd a _ | uadd a _ | addc a _ | saddc a _ | uaddc a _ =>
    exact (congrArg (Machine.writeReg a.val · (g s)) (h.acc s)).trans (h.writeReg _ _ _)
  | out a b => exact (congrArg (Machine.portWrite a.val · (g s)) (h.readReg b.val s)).trans (h.portWrite _ _ _)
  | noop | xadd | xaddc | shr | not | jmp | bie => rfl

/-! ## The stage field: clock() in the spec's order (40_pipeline.md R111) -/

theorem sparesData_withStage (g : Stage) : SparesData fun s => { s with stage := g } where
  readReg _ _ := rfl
  acc _ := rfl
  writeReg _ _ _ := by unfold writeReg; split <;> rfl
  portWrite _ _ _ := by unfold portWrite; split <;> rfl

theorem branch_withStage (g : Stage) : branch i { s with stage := g } = { branch i s with stage := g } := by
  cases i <;> rfl

/-- The write-back stage of a clock is the spec's, but for the model's own stage field. -/
theorem afterWriteBack_eq (s : State) :
    afterWriteBack s = { writeback s.exReg { s with wbReg := s.exReg } with stage := .writeBack } :=
  (sparesData_withStage .writeBack).writeback s.exReg { s with wbReg := s.exReg }

/-- The last part of a clock, with the fetch from the store it started with. -/
theorem endClock_afterExecute_eq (s : State) :
    endClock (afterExecute s) = inWriteBack
      { afterExecute s with
        idReg := s.ifReg
        ifReg := imemAt (afterExecute s).pc.toNat s
        pc := BitVec.ofNat 5 ((afterExecute s).pc.toNat + 1) } := by
  have hpc : (afterExecute s).pc + 1#5 = BitVec.ofNat 5 ((afterExecute s).pc.toNat + 1) := by
    rw [BitVec.ofNat_add, BitVec.ofNat_toNat, BitVec.setWidth_eq]
  apply State.ext
  case pc => exact hpc
  case ifReg => exact endClock_afterExecute_ifReg s
  case idReg => exact clock_idReg
  all_goals rfl

theorem endClock_afterExecute_eq_clock (s : State) : endClock (afterExecute s) = inWriteBack (clock s) := by
  have hid : (writeback s.exReg { s with wbReg := s.exReg }).idReg = s.idReg := writeback_idReg _
  have henter : enterExecute (afterWriteBack s) =
      { writeback s.exReg { s with wbReg := s.exReg } with exReg := s.idReg, stage := .execute } := by
    rw [afterWriteBack_eq]
    simp only [enterExecute, hid]
  have hbranch := branch_withStage s.idReg .execute
    (s := { writeback s.exReg { s with wbReg := s.exReg } with exReg := s.idReg })
  rw [afterExecute, henter, hbranch]
  simp only [clock, hid, branch_exReg]
  apply State.ext
  case exReg => simp only [endClock_exReg, aluStep_exReg, branch_exReg]
  all_goals rfl

/-! ## The input lines (10_state.md R32, decision D14) -/

theorem sparesData_withInp (v : Vector Byte 8) : SparesData fun s => { s with inp := v } where
  readReg _ _ := rfl
  acc _ := rfl
  writeReg _ _ _ := by unfold writeReg; split <;> rfl
  portWrite _ _ _ := by unfold portWrite; split <;> rfl

theorem branch_withInp (v : Vector Byte 8) : branch i { s with inp := v } = { branch i s with inp := v } := by
  cases i <;> rfl

/-- A clock from other input lines is the same clock, with those lines. -/
theorem clock_withInp (v : Vector Byte 8) (s : State) :
    endClock (afterExecute { s with inp := v }) = { endClock (afterExecute s) with inp := v } := by
  have hw : afterWriteBack { s with inp := v } = { afterWriteBack s with inp := v } :=
    (sparesData_withInp v).writeback s.exReg (enterWriteBack s)
  have hb : branch s.idReg (enterExecute { afterWriteBack s with inp := v }) =
      { branch s.idReg (enterExecute (afterWriteBack s)) with inp := v } :=
    branch_withInp (s := enterExecute (afterWriteBack s)) s.idReg v
  simp only [afterExecute, hw, hb]
  rfl

/-! ## Operand kinds (30_encoding.md R80, R83, decision D6) -/

theorem exec_withKinds (ka kb : OperandKind) (s : State) : exec (Instr.withKinds ka kb i) s = exec i s := by
  cases i <;> rfl

theorem writeback_withKinds (ka kb : OperandKind) (s : State) :
    writeback (Instr.withKinds ka kb i) s = writeback i s := by
  cases i <;> rfl

/-- The execute stage uses the operands' values alone. -/
theorem execute_withKinds (ka kb : OperandKind) (s : State) :
    aluStep (Instr.withKinds ka kb i).op (Instr.withKinds ka kb i).mode (Instr.withKinds ka kb i).opA
      (Instr.withKinds ka kb i).opB (branch (Instr.withKinds ka kb i) s) =
      aluStep i.op i.mode i.opA i.opB (branch i s) := by
  cases i <;> rfl

theorem sparesData_eraseKinds : SparesData eraseKinds where
  readReg _ _ := rfl
  acc _ := rfl
  writeReg _ _ _ := by unfold writeReg; split <;> rfl
  portWrite _ _ _ := by unfold portWrite; split <;> rfl

theorem branch_eraseKinds (s : State) : branch i (eraseKinds s) = eraseKinds (branch i s) := by
  cases i <;> rfl

theorem afterWriteBack_eraseKinds (s : State) : afterWriteBack (eraseKinds s) = eraseKinds (afterWriteBack s) :=
  (writeback_withKinds s.exReg _ _ _).trans (sparesData_eraseKinds.writeback s.exReg (enterWriteBack s))

theorem afterExecute_eraseKinds (s : State) : afterExecute (eraseKinds s) = eraseKinds (afterExecute s) := by
  have hb : branch s.idReg (enterExecute (eraseKinds (afterWriteBack s))) =
      eraseKinds (branch s.idReg (enterExecute (afterWriteBack s))) :=
    branch_eraseKinds s.idReg (enterExecute (afterWriteBack s))
  rw [afterExecute, afterWriteBack_eraseKinds]
  refine (execute_withKinds s.idReg _ _ _).trans ?_
  rw [hb]
  rfl

/-- A fetch from the store without kinds is the fetched instruction without kinds. -/
theorem endClock_eraseKinds (s : State) : endClock (eraseKinds s) = eraseKinds (endClock s) := by
  apply State.ext
  case ifReg => exact Vector.getElem_map _ _
  all_goals rfl

/-! ## Any number of clocks -/

/-- What every clock carries along, any number of clocks carries along. -/
theorem run_map {g : State → State} (hclock : ∀ s, endClock (afterExecute (g s)) = g (endClock (afterExecute s)))
    {n : Nat} (h : run n s = .next t) : run n (g s) = .next (g t) := by
  induction n generalizing s with
  | zero =>
    obtain rfl := Host.Outcome.next.inj ((run_zero s).symm.trans h)
    exact run_zero _
  | succ n ih =>
    have hgs : run (n + 1) (g s) = run n (g (endClock (afterExecute s))) := (run_succ n _).trans (by rw [hclock])
    exact hgs.trans (ih ((run_succ n s).symm.trans h))

/-! ## The model's interface to the opcode table (log entry 3) -/

theorem withFetchWord_of_decodes {w : Nat} (h : decodeTableWord 32 w = some i) (s : State) :
    s.withFetchWord 32 w = { s with idReg := i } := by
  simp only [State.withFetchWord, h]

end Sys2Proof.Machine
end

section
/-! SUPPORT. The statements about a clock in the spec's order and about what no clock observes (40_pipeline.md R111, decisions D6 and D14, log entries 1 and 3), settled. -/

namespace Sys2Proof.Machine

open Sys2Proof.Claims

/-- Settles O9: the write-back stage leaves ID alone, so the execute stage is that of the instruction ID held. -/
theorem stepRunsTheInstructionsInExAndId : Obligations.StepRunsTheInstructionsInExAndId := by
  intro s
  have henter : enterExecute (afterWriteBack s) = inExecute { afterWriteBack s with exReg := s.idReg } := by
    simp only [enterExecute, afterWriteBack_idReg]
  exact ⟨afterWriteBack s, afterExecute s, exec_enterWriteBack s, henter ▸ exec_enterExecute s,
    (step_eq s).trans (congrArg _ (endClock_afterExecute_eq s))⟩

/-- Settles O10: the stage field passes through the write-back and the branch, and the ALU step does not read it. -/
theorem stepIsTheSequentialClock : Obligations.StepIsTheSequentialClock := fun s =>
  (step_eq s).trans (congrArg _ (endClock_afterExecute_eq_clock s))

/-- Settles O40: no stage of a clock reads an input line, nor does the snapshot. -/
theorem inputLinesAreUnobserved : Obligations.InputLinesAreUnobserved := fun _ _ v _ h =>
  ⟨run_map (clock_withInp v) h, rfl⟩

/-- Settles O41: both stages use the operands' values alone, and a fetch takes what the store holds. -/
theorem operandKindsAreIgnored : Obligations.OperandKindsAreIgnored :=
  ⟨fun ka kb i s => exec_withKinds i ka kb s,
    fun _ _ _ => run_map fun s => by rw [afterExecute_eraseKinds, endClock_eraseKinds]⟩

/-- Settles O42: the word's instruction stands in ID, from which the clock executes. -/
theorem fetchWordIsExecutedNext : Obligations.FetchWordIsExecutedNext := by
  intro s w i h
  rw [withFetchWord_of_decodes i h s]
  exact ⟨_, _, exec_enterWriteBack { s with idReg := i }, exec_enterExecute { s with idReg := i }, step_eq _⟩

end Sys2Proof.Machine
end

section
/-! SUPPORT. The fields of a word as numbers, which words and stores are accepted, and what an accepted one holds (30_encoding.md R74, R79, R81, R82). -/

namespace Sys2Proof

/-! ## The fields of a word -/

theorem extractLsb'_toNat_div (w : Word) (k n : Nat) : (w.extractLsb' k n).toNat = w.toNat / 2 ^ k % 2 ^ n := by
  rw [BitVec.extractLsb'_toNat, Nat.shiftRight_eq_div_pow]

/-- A field is 0 exactly when its number is. -/
theorem extractLsb'_eq_zero_iff (w : Word) (k n : Nat) :
    w.extractLsb' k n = 0#n ↔ w.toNat / 2 ^ k % 2 ^ n = 0 := by
  rw [← extractLsb'_toNat_div, BitVec.toNat_eq, BitVec.toNat_zero]

/-- A word with reserved fields 0 is the packing of its other fields. -/
theorem encode_recordOfWord {w : Word} {op : Operation} (hop : operationOfCode (w.extractLsb' 28 4) = some op)
    (hhi : w.extractLsb' 26 2 = 0#2) (hlo : w.extractLsb' 16 4 = 0#4) : (recordOfWord op w).encode = w := by
  apply BitVec.eq_of_toNat_eq
  have hw := w.isLt
  rw [extractLsb'_eq_zero_iff] at hhi hlo
  rw [encode_toNat]
  simp only [recordOfWord, operandOfWord, code_modeOfCode, code_kindOfCode, code_of_operationOfCode hop,
    extractLsb'_toNat_div]
  omega

theorem encode_of_decode {w : Word} {i : Instr} (h : decode w = .ok i) : encode i = w := by
  obtain ⟨op, hop, ⟨hhi, hlo⟩, hi⟩ := (decode_eq_ok_iff w i).1 h
  rw [encode, toRaw_of_toInstr? hi, encode_recordOfWord hop hhi hlo]

/-! ## Which words decode -/

/-- Tags 0 to 9 name an operation (30_encoding.md R71). -/
theorem operationOfCode_isSome_iff (c : BitVec 4) : (operationOfCode c).isSome = true ↔ c.toNat < 10 := by
  revert c; decide

/-- Tags 3 and 4 are those of ADD and ADDC (30_encoding.md R71, R77). -/
theorem isAlu_of_operationOfCode {c : BitVec 4} {op : Operation} (h : operationOfCode c = some op) :
    op.isAlu = true ↔ c.toNat = 3 ∨ c.toNat = 4 := by
  revert op c; decide

theorem modeOfCode_eq_none_iff (c : BitVec 2) : modeOfCode c = .none ↔ c.toNat = 0 := by
  revert c; decide

/-- A word decodes when its operation is one, its reserved fields are 0 and its record is well-formed. -/
theorem decode_accepts_iff (w : Word) :
    (∃ i, decode w = .ok i) ↔
      ∃ op, operationOfCode (w.extractLsb' 28 4) = some op ∧
        (w.extractLsb' 26 2 = 0#2 ∧ w.extractLsb' 16 4 = 0#4) ∧ (recordOfWord op w).wellFormed = true := by
  simp only [decode_eq_ok_iff, ← toInstr?_isSome_iff, Option.isSome_iff_exists]
  constructor
  · rintro ⟨i, op, hop, hz, hi⟩
    exact ⟨op, hop, hz, i, hi⟩
  · rintro ⟨op, hop, hz, i, hi⟩
    exact ⟨i, op, hop, hz, hi⟩

theorem recordOfWord_wellFormed_iff {w : Word} {op : Operation}
    (hop : operationOfCode (w.extractLsb' 28 4) = some op) :
    (recordOfWord op w).wellFormed = true ↔
      ((w.extractLsb' 28 4).toNat = 3 ∨ (w.extractLsb' 28 4).toNat = 4) ∨ (w.extractLsb' 24 2).toNat = 0 := by
  rw [← isAlu_of_operationOfCode hop, ← modeOfCode_eq_none_iff]
  simp [RawInstr.wellFormed, recordOfWord]

theorem decode_toOption_eq_some_iff (w : Word) (i : Instr) : (decode w).toOption = some i ↔ decode w = .ok i := by
  cases decode w <;> simp [Except.toOption]

theorem decode_toOption_isSome_iff (w : Word) : (decode w).toOption.isSome = true ↔ ∃ i, decode w = .ok i := by
  simp only [Option.isSome_iff_exists, decode_toOption_eq_some_iff]

end Sys2Proof

namespace Sys2Proof.Machine

variable {α : Type} {read : α → Option Instr} {l : List α}

/-! ## Which stores load -/

/-- Entries that each hold an instruction are the list of those instructions. -/
theorem map_eq_map_some_of_isSome (h : ∀ a ∈ l, (read a).isSome = true) :
    l.map read = (l.filterMap read).map some := by
  rw [List.map_filterMap_some_eq_filter_map_isSome, List.filter_eq_self.2]
  simpa using h

theorem isSome_of_map_eq_map_some {is : List Instr} (h : l.map read = is.map some) :
    ∀ a ∈ l, (read a).isSome = true := by
  intro a ha
  have hmem : read a ∈ is.map some := h ▸ List.mem_map_of_mem ha
  obtain ⟨i, -, hi⟩ := List.mem_map.1 hmem
  rw [← hi, Option.isSome_some]

/-- A store loads exactly when it has 32 entries and each holds an instruction (30_encoding.md R79, R81). -/
theorem loadWith_accepts_iff : (∃ s, loadWith read l = .next s) ↔ l.length = 32 ∧ ∀ a ∈ l, (read a).isSome = true := by
  simp only [loadWith_eq_next_iff]
  constructor
  · rintro ⟨s, -, hmap⟩
    refine ⟨?_, isSome_of_map_eq_map_some hmap⟩
    simpa using congrArg List.length hmap
  · rintro ⟨hlen, hsome⟩
    have hmap := map_eq_map_some_of_isSome hsome
    have hlen' : (l.filterMap read).length = 32 := by simpa [hlen] using (congrArg List.length hmap).symm
    exact ⟨construct ⟨(l.filterMap read).toArray, hlen'⟩, rfl, hmap⟩

/-- Where a reading can be undone, the instructions read spell the store. -/
theorem map_eq_of_map_eq_map_some {f : Instr → α} (hf : ∀ a i, read a = some i → f i = a) {is : List Instr}
    (h : l.map read = is.map some) : is.map f = l := by
  induction l generalizing is with
  | nil => rw [List.map_eq_nil_iff.1 h.symm, List.map_nil]
  | cons a l ih =>
    cases is with
    | nil => cases h
    | cons i is =>
      obtain ⟨ha, hl⟩ := List.cons.inj h
      rw [List.map_cons, hf a i ha, ih hl]

end Sys2Proof.Machine
end

section
/-! SUPPORT. The statements about words, the decoder and the load path (30_encoding.md R74, R79 to R82, decisions D2 to D5 and D13), settled. -/

namespace Sys2Proof.Machine

/-- Settles O44: the fields that are not packed are 0, and every other field is packed from its reading. -/
theorem encodeOfDecode : Obligations.EncodeOfDecode := fun _ _ => encode_of_decode

/-- Settles O45: the conditions on the decoded fields, read as numbers. -/
theorem decodeAcceptsExactlyTheLegalWords : Obligations.DecodeAcceptsExactlyTheLegalWords := by
  intro w
  have hw := w.isLt
  have hop := operationOfCode_isSome_iff (w.extractLsb' 28 4)
  rw [extractLsb'_toNat_div, Option.isSome_iff_exists] at hop
  rw [decode_accepts_iff]
  constructor
  · rintro ⟨op, hcode, ⟨hhi, hlo⟩, hwf⟩
    rw [recordOfWord_wellFormed_iff hcode, extractLsb'_toNat_div, extractLsb'_toNat_div] at hwf
    rw [extractLsb'_eq_zero_iff] at hhi hlo
    have hlt := hop.1 ⟨op, hcode⟩
    omega
  · rintro ⟨hlt, hhi, hlo, hmode⟩
    obtain ⟨op, hcode⟩ := hop.2 (by omega)
    refine ⟨op, hcode, ⟨(extractLsb'_eq_zero_iff w 26 2).2 hhi, (extractLsb'_eq_zero_iff w 16 4).2 hlo⟩, ?_⟩
    rw [recordOfWord_wellFormed_iff hcode, extractLsb'_toNat_div, extractLsb'_toNat_div]
    omega

/-- Settles O46: the decoder evaluates on each word. -/
theorem sampleWordsDecode : Obligations.SampleWordsDecode := by
  unfold Obligations.SampleWordsDecode
  decide

/-- Settles O47: a store loads when every entry can be read, and what was read from a word encodes to it. -/
theorem loadAcceptsExactlyWellFormedStores : Obligations.LoadAcceptsExactlyWellFormedStores := by
  refine ⟨fun ws => ?_, fun ws s hload => ?_, fun rs => ?_⟩
  · simp only [loadWords, loadWith_accepts_iff, decode_toOption_isSome_iff]
  · obtain ⟨hs, hmap⟩ := (loadWith_eq_next_iff _ ws s).1 hload
    exact ⟨hs, map_eq_of_map_eq_map_some
      (fun w i hw => encode_of_decode ((decode_toOption_eq_some_iff w i).1 hw)) hmap⟩
  · simp only [loadRecords, loadWith_accepts_iff, toInstr?_isSome_iff, storeWellFormed, Bool.and_eq_true,
      beq_iff_eq, List.all_eq_true]

end Sys2Proof.Machine
end

section
/-! SUPPORT. The tokens of a source line, and how numbers, operands and mnemonics read back as they are spelled (30_encoding.md R87 to R93). -/

namespace Sys2Proof.Machine

/-! ## Plain characters and the tokens of a line (30_encoding.md R87, R88) -/

/-- A character that neither upper-casing nor a comment nor white space touches. -/
def isPlain (c : Char) : Bool := !c.isWhitespace && c != ';' && c.toUpper == c

theorem isPlain_iff (c : Char) : isPlain c = true ↔ c.isWhitespace = false ∧ c ≠ ';' ∧ c.toUpper = c := by
  simp [isPlain, and_assoc]

/-- A token is not empty and its characters are plain. -/
def IsPlainToken (t : Token) : Prop := t ≠ [] ∧ ∀ c ∈ t, isPlain c = true

/-- A token ends at white space. -/
theorem tokensFrom_token_space {t : Token} (h : IsPlainToken t) (rest : List Char) :
    tokensFrom [] (t ++ ' ' :: rest) = t :: tokensFrom [] rest := by
  obtain ⟨hne, hplain⟩ := h
  rw [tokensFrom_append _ _ _ fun c hc => ((isPlain_iff c).1 (hplain c hc)).1]
  simp [tokensFrom, hne]

/-- A token ends at the end of the line. -/
theorem tokensFrom_token {t : Token} (h : IsPlainToken t) : tokensFrom [] t = [t] := by
  obtain ⟨hne, hplain⟩ := h
  have happ := tokensFrom_append [] t [] fun c hc => ((isPlain_iff c).1 (hplain c hc)).1
  rw [List.append_nil, List.nil_append] at happ
  simp [happ, tokensFrom, hne]

/-- Splitting a line undoes joining its tokens with spaces. -/
theorem tokensFrom_intercalate (ts : List Token) (h : ∀ t ∈ ts, IsPlainToken t) :
    tokensFrom [] ([' '].intercalate ts) = ts := by
  induction ts with
  | nil => rfl
  | cons t ts ih =>
    obtain ⟨ht, hts⟩ := List.forall_mem_cons.1 h
    cases ts with
    | nil => simpa using tokensFrom_token ht
    | cons u us =>
      rw [List.intercalate_cons_cons, List.append_assoc, List.singleton_append, tokensFrom_token_space ht, ih hts]

/-- Every character of a joined line is a space or stands in a token. -/
theorem mem_intercalate {ts : List Token} {c : Char} (h : c ∈ [' '].intercalate ts) :
    c = ' ' ∨ ∃ t ∈ ts, c ∈ t := by
  induction ts with
  | nil => nomatch h
  | cons t ts ih =>
    cases ts with
    | nil => exact .inr ⟨t, by simp, by simpa using h⟩
    | cons u us =>
      rw [List.intercalate_cons_cons, List.mem_append, List.mem_append, List.mem_singleton] at h
      obtain (hc | hc) | hc := h
      · exact .inr ⟨t, by simp, hc⟩
      · exact .inl hc
      · obtain hs | ⟨w, hw, hcw⟩ := ih hc
        · exact .inl hs
        · exact .inr ⟨w, List.mem_cons_of_mem t hw, hcw⟩

theorem tokensOfLine_intercalate (ts : List Token) (h : ∀ t ∈ ts, IsPlainToken t) :
    tokensOfLine ([' '].intercalate ts) = ts := by
  rw [tokensOfLine, normaliseLine_of_plain, tokensFrom_intercalate ts h]
  intro c hc
  obtain rfl | ⟨t, ht, hct⟩ := mem_intercalate hc
  · decide
  · exact ((isPlain_iff c).1 ((h t ht).2 c hct)).2

/-! ## Blank lines (30_encoding.md R88) -/

theorem whitespace_plain {c : Char} (h : c.isWhitespace = true) : c ≠ ';' ∧ c.toUpper = c := by
  simp only [Char.isWhitespace, Bool.or_eq_true, decide_eq_true_eq] at h
  obtain ((rfl | rfl) | rfl) | rfl := h <;> decide

theorem tokensFrom_whitespace (l : List Char) (h : ∀ c ∈ l, c.isWhitespace = true) : tokensFrom [] l = [] := by
  induction l with
  | nil => rfl
  | cons c cs ih =>
    obtain ⟨hc, hcs⟩ := List.forall_mem_cons.1 h
    simp only [tokensFrom, hc, if_true, List.isEmpty_nil]
    exact ih hcs

/-- The line ends at a comment sign. -/
theorem normaliseLine_comment (l comment : List Char) :
    normaliseLine (l ++ ';' :: comment) = normaliseLine l := by
  induction l with
  | nil => rfl
  | cons c cs ih =>
    simp only [normaliseLine, List.cons_append, List.map_cons, List.takeWhile_cons] at ih ⊢
    rw [ih]

/-! ## Numbers (30_encoding.md R89, R91) -/

theorem digitValue_digitChar {n : Nat} (h : n < 10) : digitValue (digitChar n) = n := by
  revert n; decide

theorem isDigit_digitChar {n : Nat} (h : n < 10) : (digitChar n).isDigit = true := by
  revert n; decide

theorem isPlain_digitChar {n : Nat} (h : n < 10) : isPlain (digitChar n) = true := by
  revert n; decide

/-- A byte's decimal spelling is a list of digits, not empty, that reads as its value. -/
theorem decimalToken_digits (v : Byte) :
    ∃ ds, ds ≠ [] ∧ (∀ d ∈ ds, d < 10) ∧ decimalToken v = ds.map digitChar ∧
      ds.foldl (fun n d => 10 * n + d) 0 = v.toNat := by
  have hv := v.isLt
  unfold decimalToken
  by_cases h₁ : v.toNat < 10
  · exact ⟨[v.toNat], by simp, by simpa using h₁, by simp [h₁], by simp⟩
  · by_cases h₂ : v.toNat < 100
    · refine ⟨[v.toNat / 10, v.toNat % 10], by simp, ?_, by simp [h₁, h₂], ?_⟩
      · simp only [List.forall_mem_cons]; exact ⟨by omega, by omega, nofun⟩
      · simp only [List.foldl]; omega
    · refine ⟨[v.toNat / 100, v.toNat / 10 % 10, v.toNat % 10], by simp, ?_, by simp [h₁, h₂], ?_⟩
      · simp only [List.forall_mem_cons]; exact ⟨by omega, by omega, by omega, nofun⟩
      · simp only [List.foldl]; omega

/-- Reading digit characters is reading their digits. -/
theorem foldl_map_digitChar (ds : List Nat) (h : ∀ d ∈ ds, d < 10) (n : Nat) :
    (ds.map digitChar).foldl (fun n c => 10 * n + digitValue c) n = ds.foldl (fun n d => 10 * n + d) n := by
  induction ds generalizing n with
  | nil => rfl
  | cons d ds ih =>
    obtain ⟨hd, hds⟩ := List.forall_mem_cons.1 h
    simp only [List.map_cons, List.foldl_cons, digitValue_digitChar hd, ih hds]

theorem decimalValue?_decimalToken (v : Byte) : decimalValue? (decimalToken v) = some v.toNat := by
  obtain ⟨ds, hne, hlt, htoken, hvalue⟩ := decimalToken_digits v
  have hall : (ds.map digitChar).all Char.isDigit = true := by
    simp only [List.all_map, List.all_eq_true]
    exact fun d hd => isDigit_digitChar (hlt d hd)
  simp [decimalValue?, htoken, hne, hall, foldl_map_digitChar ds hlt, hvalue]

/-- A decimal spelling is no binary literal: it does not begin with `B`. -/
theorem binaryValue?_decimalToken (v : Byte) : binaryValue? (decimalToken v) = none := by
  obtain ⟨ds, hne, hlt, htoken, -⟩ := decimalToken_digits v
  cases ds with
  | nil => exact absurd rfl hne
  | cons d ds =>
    have hd : digitChar d ≠ 'B' := fun h => by
      have := isDigit_digitChar (hlt d (by simp))
      rw [h] at this
      exact absurd this (by decide)
    simp [htoken, binaryValue?, hd]

theorem byteOfLiteral?_toNat (v : Byte) : byteOfLiteral? (some v.toNat) = some v := by
  simp [byteOfLiteral?, Nat.le_of_lt_succ v.isLt]

theorem sigilValue?_decimalToken (v : Byte) : sigilValue? (decimalToken v) = some v := by
  rw [sigilValue?, binaryValue?_decimalToken, decimalValue?_decimalToken]
  exact byteOfLiteral?_toNat v

/-- Every operand's spelling is read as it (30_encoding.md R89). -/
theorem parseOperand_operandToken (o : Operand) : parseOperand (operandToken o) = some o := by
  obtain ⟨kind, v⟩ := o
  cases kind with
  | immediate =>
    simp only [operandToken, parseOperand, decimalValue?_decimalToken, byteOfLiteral?_toNat]
    rfl
  | register => simp [operandToken, parseOperand, decimalValue?, sigilValue?_decimalToken, operandOf]
  | memoryAddress => simp [operandToken, parseOperand, decimalValue?, sigilValue?_decimalToken, operandOf]
  | port => simp [operandToken, parseOperand, decimalValue?, sigilValue?_decimalToken, operandOf]

theorem isPlainToken_decimalToken (v : Byte) : IsPlainToken (decimalToken v) := by
  obtain ⟨ds, hne, hlt, htoken, -⟩ := decimalToken_digits v
  rw [htoken]
  refine ⟨by simpa using hne, fun c hc => ?_⟩
  obtain ⟨d, hd, rfl⟩ := List.mem_map.1 hc
  exact isPlain_digitChar (hlt d hd)

theorem IsPlainToken.cons {c : Char} {t : Token} (hc : isPlain c = true) (ht : IsPlainToken t) :
    IsPlainToken (c :: t) :=
  ⟨List.cons_ne_nil _ _, List.forall_mem_cons.2 ⟨hc, ht.2⟩⟩

theorem isPlainToken_operandToken (o : Operand) : IsPlainToken (operandToken o) := by
  obtain ⟨kind, v⟩ := o
  cases kind with
  | immediate => exact isPlainToken_decimalToken v
  | register | memoryAddress | port => exact (isPlainToken_decimalToken v).cons (by decide)

/-! ## Mnemonics (30_encoding.md R92, R93) -/

theorem resolveMnemonic_operationName (op : Operation) : resolveMnemonic (operationName op) = .ok (op, .none) := by
  simp only [resolveMnemonic, operationNamed_operationName]

/-- A mnemonic with one character before it: the mode is that letter's on ADD and ADDC (log entry 12). -/
theorem resolveMnemonic_cons (c : Char) (op : Operation) :
    resolveMnemonic (c :: operationName op) =
      if op.isAlu then
        if c = 'U' then .ok (op, .u) else if c = 'S' then .ok (op, .s) else if c = 'X' then .ok (op, .x)
        else .error .malformedInstruction
      else .error .noAluArguments := by
  simp only [resolveMnemonic, operationNamed_cons, operationNamed_operationName, modeOfLetter]
  split_ifs <;> rfl

/-- The mnemonic of every operation in every mode it can have. -/
theorem resolveMnemonic_modeLetters {op : Operation} {mode : AddrMode} (h : op.isAlu = true ∨ mode = .none) :
    resolveMnemonic (modeLetters mode ++ operationName op) = .ok (op, mode) := by
  cases mode with
  | none => exact resolveMnemonic_operationName op
  | s | u | x =>
    have halu : op.isAlu = true := h.resolve_right nofun
    exact (resolveMnemonic_cons _ op).trans (by simp [halu])

theorem isPlainToken_operationName (op : Operation) : IsPlainToken (operationName op) := by
  refine ⟨by cases op <;> nofun, List.all_eq_true.1 ?_⟩
  cases op <;> rfl

theorem isPlainToken_mnemonic (mode : AddrMode) (op : Operation) :
    IsPlainToken (modeLetters mode ++ operationName op) := by
  have hop := isPlainToken_operationName op
  cases mode with
  | none => exact hop
  | s | u | x => exact hop.cons (by decide)

end Sys2Proof.Machine
end

section
/-! SUPPORT. The operand slots of a line, the spelling of an instruction, and the assembler's answer on lines without errors (30_encoding.md R79, R94 to R102). -/

namespace Sys2Proof.Machine

open Sys2Proof.Claims

/-! ## Slots (30_encoding.md R94 to R97) -/

/-- A resolved line goes on with its operands. -/
theorem parseTokens_of_resolveMnemonic {t : Token} {op : Operation} {mode : AddrMode}
    (h : resolveMnemonic t = .ok (op, mode)) (rest : List Token) :
    parseTokens (t :: rest) = parseOperands op mode rest := by
  simp only [parseTokens, h]

/-- A slot spelled as the assembler expects it is filled without a message (30_encoding.md R96, R102). -/
theorem takeSlot_operandToken {required : Option OperandKind} {o : Operand} (h : slotAsExpected required o = true)
    (slot : Slot) (rest : List Token) :
    takeSlot required slot ((if required.isSome then [operandToken o] else []) ++ rest) = .ok (o, [], rest) := by
  cases required with
  | none =>
    obtain rfl : o = .unused := by simpa [slotAsExpected] using h
    rfl
  | some k =>
    have hk : o.kind = k := by simpa [slotAsExpected] using h
    simp [takeSlot, parseOperand_operandToken, hk]

/-- A slot that is not consumed takes no token (30_encoding.md R94). -/
theorem takeSlot_none (slot : Slot) (ts : List Token) : takeSlot none slot ts = .ok (.unused, [], ts) := rfl

/-- A required slot without a token is an error (30_encoding.md R95). -/
theorem takeSlot_missing (k : OperandKind) (slot : Slot) : takeSlot (some k) slot [] = .error .missingOperand := rfl

/-- A required slot takes the next token whatever its kind, with the warning of that slot (decision D16). -/
theorem takeSlot_some {t : Token} {o : Operand} (h : parseOperand t = some o) (k : OperandKind) (slot : Slot)
    (rest : List Token) :
    takeSlot (some k) slot (t :: rest) =
      .ok (o, if o.kind = k then [] else [.kindMismatch k slot o.kind], rest) := by
  simp only [takeSlot, h]

/-- The warnings of one slot, with their severity. -/
theorem map_warning_kindMismatch (k : OperandKind) (slot : Slot) (o : Operand) :
    (if o.kind = k then [] else [Message.kindMismatch k slot o.kind]).map (fun m => (Severity.warning, m)) =
      slotWarnings k slot o := by
  unfold slotWarnings
  split <;> rfl

section Operands

variable {op : Operation} {mode : AddrMode} {ka kb : OperandKind} {ta tb : Token} {oa ob : Operand}

/-- Two required slots take the next two tokens; what follows is ignored (30_encoding.md R94, R97). -/
theorem parseOperands_both (hreq : operandRequirements op mode = (some ka, some kb)) (ha : parseOperand ta = some oa)
    (hb : parseOperand tb = some ob) (rest : List Token) :
    parseOperands op mode (ta :: tb :: rest) =
      ⟨RawInstr.toInstr? ⟨op, mode, oa, ob⟩, slotWarnings ka .a oa ++ slotWarnings kb .b ob⟩ := by
  simp only [parseOperands, hreq, takeSlot_some ha, takeSlot_some hb, List.map_append, map_warning_kindMismatch]

/-- A second token missing is an error, after the warning of slot A (30_encoding.md R95, log entry 8). -/
theorem parseOperands_second_missing (hreq : operandRequirements op mode = (some ka, some kb))
    (ha : parseOperand ta = some oa) :
    parseOperands op mode [ta] = ⟨none, slotWarnings ka .a oa ++ [(.error, .missingOperand)]⟩ := by
  simp only [parseOperands, hreq, takeSlot_some ha, takeSlot_missing, map_warning_kindMismatch]

/-- Where only slot A is required the next token fills it (30_encoding.md R94). -/
theorem parseOperands_onlyA (hreq : operandRequirements op mode = (some ka, none)) (ha : parseOperand ta = some oa)
    (rest : List Token) :
    parseOperands op mode (ta :: rest) = ⟨RawInstr.toInstr? ⟨op, mode, oa, .unused⟩, slotWarnings ka .a oa⟩ := by
  simp only [parseOperands, hreq, takeSlot_some ha, takeSlot_none, List.append_nil, map_warning_kindMismatch]

/-- Where only slot B is required the next token fills it (30_encoding.md R94). -/
theorem parseOperands_onlyB (hreq : operandRequirements op mode = (none, some kb)) (hb : parseOperand tb = some ob)
    (rest : List Token) :
    parseOperands op mode (tb :: rest) = ⟨RawInstr.toInstr? ⟨op, mode, .unused, ob⟩, slotWarnings kb .b ob⟩ := by
  simp only [parseOperands, hreq, takeSlot_some hb, takeSlot_none, List.nil_append, map_warning_kindMismatch]

/-- Without tokens the first required slot is the error (30_encoding.md R95). -/
theorem parseOperands_nil (hreq : operandRequirements op mode ≠ (none, none)) :
    parseOperands op mode [] = ⟨none, [(.error, .missingOperand)]⟩ := by
  rcases hab : operandRequirements op mode with ⟨_ | _, _ | _⟩
  case none.none => exact absurd hab hreq
  case none.some => simp only [parseOperands, hab, takeSlot_none, takeSlot_missing, List.map_nil, List.nil_append]
  case some.none | some.some => simp only [parseOperands, hab, takeSlot_missing]

end Operands

/-- The operation and mode of an instruction are ones a mnemonic can have (30_encoding.md R81). -/
theorem isAlu_or_mode_none (i : Instr) : i.op.isAlu = true ∨ i.mode = .none := by
  have hwf : i.toRaw.wellFormed = true := by rw [← toInstr?_isSome_iff, toInstr?_toRaw, Option.isSome_some]
  simpa [RawInstr.wellFormed] using hwf

theorem isPlainToken_of_mem_syntaxTokens {i : Instr} {t : Token} (h : t ∈ syntaxTokens i) : IsPlainToken t := by
  simp only [syntaxTokens, List.mem_cons, List.mem_append, List.mem_ite_nil_right, List.not_mem_nil, or_false] at h
  obtain rfl | ⟨-, rfl⟩ | ⟨-, rfl⟩ := h
  · exact isPlainToken_mnemonic _ _
  · exact isPlainToken_operandToken _
  · exact isPlainToken_operandToken _

/-- The tokens of an instruction's spelling give it back, without a message. -/
theorem parseTokens_syntaxTokens {i : Instr} (h : i.kindsAsExpected = true) :
    parseTokens (syntaxTokens i) = ⟨some i, []⟩ := by
  obtain ⟨hA, hB⟩ := Bool.and_eq_true_iff.1 h
  have hslotB := takeSlot_operandToken hB .b []
  rw [List.append_nil] at hslotB
  rw [syntaxTokens, parseTokens_of_resolveMnemonic (resolveMnemonic_modeLetters (isAlu_or_mode_none i))]
  simp only [parseOperands, takeSlot_operandToken hA, hslotB]
  exact congrArg (LineResult.mk · []) (toInstr?_toRaw i)

/-! ## Lines without errors (30_encoding.md R98, R99) -/

theorem filterMap_instr_eq {lines : List (List Char)} {is : List Instr}
    (h : lines.map (fun l => (parseLine l).instr) = is.map some) :
    (lines.map parseLine).filterMap LineResult.instr = is := by
  have hid : (lines.map fun l => (parseLine l).instr).filterMap id = (is.map some).filterMap id := by rw [h]
  simpa [List.filterMap_map] using hid

/-- A line that yields an instruction reports no error. -/
theorem not_error_of_mem_diagnosticsFrom {lines : List (List Char)} {is : List Instr}
    (h : lines.map (fun l => (parseLine l).instr) = is.map some) {d : Diagnostic}
    (hd : d ∈ diagnosticsFrom 0 (lines.map parseLine)) : d.severity ≠ .error := by
  intro herror
  obtain ⟨n, r, hr, -, hmsg⟩ := (mem_diagnosticsFrom _ 0 d).1 hd
  obtain ⟨line, hline, rfl⟩ := List.mem_map.1 (List.mem_of_getElem? hr)
  have hnone : (parseLine line).instr = none := (parseTokens_refusedByError (tokensOfLine line)).2 ⟨_, hmsg, herror⟩
  have hsome := isSome_of_map_eq_map_some h line hline
  rw [hnone] at hsome
  nomatch hsome

variable (policy : OversizePolicy) (lines : List (List Char))

/-- The size diagnostic stands beside those of the lines when they yield more than 32 instructions (log entry 13). -/
theorem mem_assemble_diagnostics_iff (d : Diagnostic) :
    d ∈ (assemble policy lines).diagnostics ↔
      d ∈ diagnosticsFrom 0 (lines.map parseLine) ∨
        32 < ((lines.map parseLine).filterMap LineResult.instr).length ∧
          d = ⟨lines.length, oversizeSeverity policy, .programExceeds32⟩ := by
  simp only [assemble, List.mem_append]
  split
  next h => simp only [List.not_mem_nil, Nat.not_lt_of_le h, false_and]
  next h => simp only [List.mem_singleton, Nat.lt_of_not_le h, true_and]

/-- The Program, when there is one (30_encoding.md R79, R98). -/
theorem assemble_program_of_no_error (h : ∀ d ∈ (assemble policy lines).diagnostics, d.severity ≠ .error) :
    (assemble policy lines).program =
      some (padProgram ((lines.map parseLine).filterMap LineResult.instr)) := by
  simp only [assemble] at h ⊢
  exact if_neg (by simpa only [List.any_eq_true, beq_iff_eq, not_exists, not_and] using h)

end Sys2Proof.Machine
end

section
/-! SUPPORT. The statements about the assembler's lines (30_encoding.md R79, R87 to R98, R102, decisions D16 and D17, log entries 6, 8, 12 and 13), settled. -/

namespace Sys2Proof.Machine

open Sys2Proof.Claims

/-- Settles O48: the line splits into its tokens, its mnemonic resolves, and every operand token reads as its
operand. -/
theorem syntaxOfEveryInstructionAssembles : Obligations.SyntaxOfEveryInstructionAssembles := by
  intro i h
  rw [parseLine, syntaxLine, tokensOfLine_intercalate _ fun t => isPlainToken_of_mem_syntaxTokens,
    parseTokens_syntaxTokens h]

/-- Settles O51: such lines report no error, so the size diagnostic alone can refuse the Program. -/
theorem assemblerPadsAndLimitsToThirtyTwo : Obligations.AssemblerPadsAndLimitsToThirtyTwo := by
  intro policy lines is hlines
  have hinstrs := filterMap_instr_eq hlines
  have hsize : 32 < is.length →
      ⟨lines.length, oversizeSeverity policy, .programExceeds32⟩ ∈ (assemble policy lines).diagnostics :=
    fun h => (mem_assemble_diagnostics_iff policy lines _).2 (.inr ⟨by rwa [hinstrs], rfl⟩)
  refine ⟨fun h => ?_, fun h => ⟨_, hsize h, rfl⟩, fun h hpolicy => ?_⟩
  · have hnone : ∀ d ∈ (assemble policy lines).diagnostics, d.severity ≠ .error := by
      intro d hd
      obtain hd | ⟨hlong, rfl⟩ := (mem_assemble_diagnostics_iff policy lines d).1 hd
      · exact not_error_of_mem_diagnosticsFrom hlines hd
      · obtain hshort | rfl := h
        · exact absurd (hinstrs ▸ hlong) (by omega)
        · nofun
    rw [assemble_program_of_no_error policy lines hnone, hinstrs]
    exact ⟨_, rfl, padProgram_getElem is⟩
  · refine (assemble_program_eq_none_iff policy lines).2 ⟨_, hsize h, ?_⟩
    rw [hpolicy]
    rfl

/-- Settles O52: a verbatim name is found, and no name is another with a character before it. -/
theorem modeLetterResolution : Obligations.ModeLetterResolution :=
  ⟨resolveMnemonic_operationName, resolveMnemonic_cons⟩

/-- Settles O53: the mnemonic resolves, and the slots take the tokens in order. -/
theorem operandTokensFillTheSlotsInOrder : Obligations.OperandTokensFillTheSlotsInOrder := by
  have hjmp := parseTokens_of_resolveMnemonic (resolveMnemonic_operationName .jmp)
  have hbie := parseTokens_of_resolveMnemonic (resolveMnemonic_operationName .bie)
  have hxadd := parseTokens_of_resolveMnemonic (resolveMnemonic_modeLetters (op := .add) (mode := .x) (.inl rfl))
  have hxaddc := parseTokens_of_resolveMnemonic (resolveMnemonic_modeLetters (op := .addc) (mode := .x) (.inl rfl))
  refine ⟨?_, fun ta oa rest ha => ?_, fun tb ob rest hb => ?_, ?_, fun rest => ?_⟩
  · intro op mode ka kb ta tb oa ob rest hop hreq ha hb
    have hparse := parseTokens_of_resolveMnemonic (resolveMnemonic_modeLetters hop)
    obtain ⟨i, hi⟩ := Option.ne_none_iff_exists'.1 (toInstr?_ne_none hop oa ob)
    refine ⟨⟨i, hi, ?_⟩, ?_, ?_, ?_⟩
    · rw [hparse, parseOperands_both hreq ha hb, hi]
    · rw [hparse, parseOperands_second_missing hreq ha]
    · rw [hparse, parseOperands_second_missing hreq ha]
      exact List.mem_append_right _ (List.mem_singleton_self _)
    · rw [hparse, parseOperands_nil (by rw [hreq]; nofun)]
  · exact ⟨(hjmp _).trans (parseOperands_onlyA rfl ha rest), (hbie _).trans (parseOperands_onlyA rfl ha rest)⟩
  · exact ⟨(hxadd _).trans (parseOperands_onlyB rfl hb rest), (hxaddc _).trans (parseOperands_onlyB rfl hb rest)⟩
  · simp only [List.forall_mem_cons]
    exact ⟨(hjmp []).trans (parseOperands_nil nofun), (hbie []).trans (parseOperands_nil nofun),
      (hxadd []).trans (parseOperands_nil nofun), (hxaddc []).trans (parseOperands_nil nofun), nofun⟩
  · exact parseTokens_of_resolveMnemonic (resolveMnemonic_operationName .noop) rest

/-- Settles O54: white space has no upper case and gives no token, and a comment is cut away. -/
theorem blankLinesAreNoops : Obligations.BlankLinesAreNoops := by
  intro blank comment h
  have htokens : tokensOfLine blank = [] := by
    rw [tokensOfLine, normaliseLine_of_plain _ fun c hc => whitespace_plain (h c hc), tokensFrom_whitespace _ h]
  have hcomment : tokensOfLine (blank ++ ';' :: comment) = tokensOfLine blank := by
    rw [tokensOfLine, normaliseLine_comment, tokensOfLine]
  exact ⟨by rw [parseLine, htokens, parseTokens], by rw [parseLine, hcomment, htokens, parseTokens]⟩

end Sys2Proof.Machine
end
